-- ==== Sys2Proof/Word.lean ====
section
/-! DEFINITION. The word and byte types (`spec/00_scope.md` R7: a word is 32 bits, a byte is 8 bits). -/

namespace Sys2Proof

/-- A 32-bit word: an instruction word or the raw value of a cell (R7, R25, R70). -/
abbrev Word := BitVec 32

/-- One byte of memory (R7, R40). -/
abbrev Byte := BitVec 8

end Sys2Proof
end

