-- ==== Sys2Proof/Config.lean ====
section
/-! DEFINITION. The fixed parameters of this hardware (`spec/00_scope.md` R5).
The open parameters `MEM_SIZE`, `IMAGE` and `MEM_INIT` (R6) are arguments of a run
(`Sys2Proof.Machine.load`), so no constant here fixes them, and no instruction has an
undefined result (`spec/93_implementation_defined.md`), so there is no free value. -/

namespace Sys2Proof.Config

/-- `ILEN`: the instruction width in bytes (R5, R70). -/
@[simp] abbrev instrBytes : Int := 4

/-- `CELL`: the cell width in bytes (R5, R25). -/
@[simp] abbrev cellBytes : Int := 4

/-- The smallest immediate, `-2^29` (R73). -/
@[simp] abbrev immMin : Int := -536870912

/-- The largest immediate, `2^29 - 1` (R73). -/
@[simp] abbrev immMax : Int := 536870911

/-- `PC_RESET` (R5, R30). -/
@[simp] abbrev pcReset : Int := 0

/-- `DP_RESET` (R5, R30). -/
@[simp] abbrev dpReset : Int := 0

end Sys2Proof.Config
end

