-- ==== Sys2Proof/Syntax.lean ====
section
/-! DEFINITION. The instructions: one constructor per row of the opcode map
(`spec/30_encoding.md` R76, `spec/opcode_table.json`). -/

namespace Sys2Proof

/-- An instruction. The operand is the decoded immediate, an integer (R73); R75 gives
opcode 3 the same two fields, so the reserved row keeps its field as an immediate too and
the whole word can be rebuilt from it. -/
inductive Instr where
  /-- `RIGHT imm`, opcode 0: move the cursor (R100). -/
  | right (imm : Int)
  /-- `ADD imm`, opcode 1: add to the cell under the cursor (R110). -/
  | add (imm : Int)
  /-- `BNZ imm`, opcode 2: branch when that cell is nonzero (R120). -/
  | bnz (imm : Int)
  /-- The reserved opcode 3 (R77): no instruction, but fetchable, and then it stops the machine. -/
  | reserved3 (imm : Int)
  deriving DecidableEq, Repr

/-- The immediate field of an instruction, as an integer (R73). -/
def Instr.imm : Instr → Int
  | .right imm => imm
  | .add imm => imm
  | .bnz imm => imm
  | .reserved3 imm => imm

/-- The opcode number of an instruction, `0 .. 3` (R72, R76). -/
def Instr.opcode : Instr → Nat
  | .right _ => 0
  | .add _ => 1
  | .bnz _ => 2
  | .reserved3 _ => 3

/-- The mnemonic of an instruction's row in the opcode table. -/
def Instr.mnemonic : Instr → String
  | .right _ => "RIGHT"
  | .add _ => "ADD"
  | .bnz _ => "BNZ"
  | .reserved3 _ => "RESERVED3"

end Sys2Proof
end

