-- ==== Sys2Proof/WellFormed.lean ====
section
/-! DEFINITION. Which instructions have an encoding: those whose immediate is in
`-2^29 .. 2^29-1` (`spec/30_encoding.md` R73, R75, R81). -/

namespace Sys2Proof

/-- The immediate is representable in 30 bits (R73, R81). -/
abbrev ImmInRange (imm : Int) : Prop := Config.immMin ≤ imm ∧ imm ≤ Config.immMax

/-- An instruction is well formed when its immediate is representable (R81). -/
abbrev Instr.WellFormed (i : Instr) : Prop := ImmInRange i.imm

end Sys2Proof
end

