-- ==== Sys2Proof/Decode.lean ====
section
/-! DEFINITION. Instruction words: byte order (`spec/20_memory.md` R42), the decoder
(`spec/30_encoding.md` R71 to R77, `spec/40_fetch_decode_execute.md` R93), and after it the
encoder (R75), both written from the encoding table of R76. -/

namespace Sys2Proof

/-- Four bytes, lowest address first, as a word: little-endian (R42, R43). -/
def wordOfBytes (b0 b1 b2 b3 : Byte) : Word :=
  BitVec.ofNat 32 (b0.toNat + 256 * b1.toNat + 65536 * b2.toNat + 16777216 * b3.toNat)

/-- Byte `k` of a word, counted from the least significant one (R44). -/
def byteOfWord (w : Word) (k : Nat) : Byte :=
  BitVec.ofNat 8 (w.toNat / 256 ^ k)

/-- The four bytes of a word, lowest address first (R42, R44). -/
def bytesOfWord (w : Word) : List Byte :=
  [byteOfWord w 0, byteOfWord w 1, byteOfWord w 2, byteOfWord w 3]

/-- `w[31:30]`, unsigned (R72). -/
def opcodeField (w : Word) : Nat := w.toNat / 2 ^ 30

/-- `w[29:0]` (R71). -/
def immField (w : Word) : Nat := w.toNat % 2 ^ 30

/-- `sext_30` (R8): the two's complement reading of a 30-bit field. -/
def sext30 (f : Nat) : Int := if f < 2 ^ 29 then (f : Int) else (f : Int) - 2 ^ 30

/-- Decode of a word (R93, R76). It is total: the four rows partition all words. -/
def decode (w : Word) : Instr :=
  match opcodeField w with
  | 0 => .right (sext30 (immField w))
  | 1 => .add (sext30 (immField w))
  | 2 => .bnz (sext30 (immField w))
  | _ => .reserved3 (sext30 (immField w))

/-- Why bytes are not an instruction. -/
inductive DecodeError where
  /-- Fewer than the four bytes of an instruction (R70). Safe: the machine itself always
  fetches four bytes, so only a reader of a byte string meets it. -/
  | truncated
  deriving DecidableEq, Repr

/-- What decoding a byte string gives. -/
inductive Decoded where
  /-- The first instruction and the bytes after it. -/
  | instr (i : Instr) (rest : List Byte)
  /-- No instruction, and why. -/
  | rejected (e : DecodeError)
  deriving DecidableEq, Repr

/-- Decode the first instruction of a byte string (R70, R42, R93). -/
def decodeBytes : List Byte → Decoded
  | b0 :: b1 :: b2 :: b3 :: rest => .instr (decode (wordOfBytes b0 b1 b2 b3)) rest
  | _ => .rejected .truncated

/-- `Encode(op, imm) = op * 2^30 + (imm mod 2^30)` (R75). An immediate out of range wraps
here; `assemble` refuses it. -/
def encode (i : Instr) : Word :=
  BitVec.ofNat 32 (i.opcode * 2 ^ 30 + (i.imm % 2 ^ 30).toNat)

/-- Encode, refusing an immediate that is not representable (R75, R81). -/
def assemble (i : Instr) : Option Word :=
  if i.WellFormed then some (encode i) else none

/-- The bytes of an instruction, least significant first (R70, R84). -/
def encodeBytes (i : Instr) : List Byte := bytesOfWord (encode i)

/-- A row of the opcode map: `w` is an instruction of the row when `w AND mask = pattern` (R76). -/
structure OpcodeRow where
  /-- The row's mnemonic in `spec/opcode_table.json`. -/
  mnemonic : String
  /-- The bits of the word that select the row. -/
  mask : Word
  /-- What those bits are for this row. -/
  pattern : Word
  deriving DecidableEq, Repr

/-- The opcode map (R76). -/
def opcodeTable : List OpcodeRow :=
  [⟨"RIGHT", 0xC0000000#32, 0x00000000#32⟩,
   ⟨"ADD", 0xC0000000#32, 0x40000000#32⟩,
   ⟨"BNZ", 0xC0000000#32, 0x80000000#32⟩,
   ⟨"RESERVED3", 0xC0000000#32, 0xC0000000#32⟩]

/-- The word of an instruction given as `nbits` bits of the number `w`, bit 0 the least
significant bit of the word; bits from `nbits` up are 0. -/
def tableWord (nbits w : Nat) : Word := BitVec.ofNat 32 (w % 2 ^ nbits)

/-- What the decoder reads from such an instruction laid out in memory order. -/
def decodeTableWord (nbits w : Nat) : Option Instr :=
  match decodeBytes (bytesOfWord (tableWord nbits w)) with
  | .instr i _ => some i
  | .rejected _ => none

end Sys2Proof
end

