-- ==== Sys2Proof/Machine/Memory.lean ====
section
/-! DEFINITION. The memory array `M` (`spec/20_memory.md` R40 to R45) as a list of the bytes
that differ from what an unlisted address holds, addresses strictly rising. The list is a
form of writing an array down: every array of bytes has exactly one such list. The range and
alignment checks stand in Ops.lean and are made by the caller, as in R43 and R44. -/

namespace Sys2Proof.Machine

/-- A memory array: address and byte, for the bytes that are not `unlistedByte`. -/
abbrev Memory := List Host.Cell

/-- What an address holds that the list does not name. -/
def unlistedByte : Byte := 0#8

/-- `M[a]` (R8). -/
def Memory.readByte : Memory → Nat → Byte
  | [], _ => unlistedByte
  | (b, v) :: rest, a => if b = a then v else Memory.readByte rest a

/-- The list without its entry for address `a`. -/
def Memory.dropByte (m : Memory) (a : Nat) : Memory := m.filter (fun c => c.1 ≠ a)

/-- The list with an entry for `a` before the first higher address. -/
def Memory.placeByte : Memory → Nat → Byte → Memory
  | [], a, v => [(a, v)]
  | (b, x) :: rest, a, v =>
    if a < b then (a, v) :: (b, x) :: rest else (b, x) :: Memory.placeByte rest a v

/-- `M[a] <- v` (R8), keeping the canonical form. -/
def Memory.writeByte (m : Memory) (a : Nat) (v : Byte) : Memory :=
  if v = unlistedByte then m.dropByte a else (m.dropByte a).placeByte a v

/-- `MemRead(a, 4)` (R43). -/
def Memory.readWord (m : Memory) (a : Nat) : Word :=
  wordOfBytes (m.readByte a) (m.readByte (a + 1)) (m.readByte (a + 2)) (m.readByte (a + 3))

/-- `MemWrite(a, 4, v)` (R44). -/
def Memory.writeWord (m : Memory) (a : Nat) (v : Word) : Memory :=
  (((m.writeByte a (byteOfWord v 0)).writeByte (a + 1) (byteOfWord v 1)).writeByte (a + 2)
    (byteOfWord v 2)).writeByte (a + 3) (byteOfWord v 3)

/-- The list of the array whose byte at each address below `size` is `f` of the address. -/
def Memory.ofBytes (size : Nat) (f : Nat → Byte) : Memory :=
  (List.range size).filterMap (fun a => if f a = unlistedByte then none else some (a, f a))

/-- The canonical form: addresses strictly rising, no entry equal to an unlisted byte. -/
def Memory.wf : Memory → Bool
  | [] => true
  | (a, v) :: rest => v != unlistedByte && rest.all (fun c => a < c.1) && Memory.wf rest

/-- Every listed address is below the capacity (R40). -/
def Memory.within (m : Memory) (size : Nat) : Bool := m.all (fun c => c.1 < size)

end Sys2Proof.Machine
end

