-- ==== Sys2Proof/Machine/Params.lean ====
section
/-! DEFINITION. The values that the plain constant `State.reset` takes for the open
parameters of a run (`spec/00_scope.md` R6). A run with other parameters starts from `load`. -/

namespace Sys2Proof.Machine

/-- DESIGN CHOICE (log entry 2, unsafe): the capacity `MEM_SIZE` of `State.reset`. The spec
gives none (`spec/91_not_in_source.md` N1); no statement rests on this value. -/
def resetMemSize : Nat := 100000

end Sys2Proof.Machine
end

