-- ==== Sys2Proof/Machine/State.lean ====
section
/-! DEFINITION. The architectural state (`spec/10_state.md` R20 to R31), the stop causes
(`spec/60_exceptions.md` R151) and the state after reset (R30). -/

namespace Sys2Proof.Machine

/-- Why the machine stopped, with the `info` recorded (R27, R151). -/
inductive Stop where
  /-- Code 1: a fetch with `pc < 0` or `pc + 4 > MEM_SIZE` (R152); info is `pc`. -/
  | fetchOutOfRange (pc : Int)
  /-- Code 2: a fetch with `pc` in range and no multiple of 4 (R153); info is `pc`. -/
  | fetchMisaligned (pc : Int)
  /-- Code 3: a word with opcode 3 was fetched (R154); info is its address and the word. -/
  | illegalInstruction (address : Int) (word : Word)
  /-- Code 4: ADD or BNZ with `dp < 0` or `dp + 4 > MEM_SIZE` (R155); info is `dp`. -/
  | dpOutOfRange (dp : Int)
  /-- Code 5: ADD or BNZ with `dp` in range and no multiple of 4 (R156); info is `dp`. -/
  | dpMisaligned (dp : Int)
  deriving DecidableEq, Repr

/-- The run-status latch (R27). -/
inductive Status where
  /-- The step loop goes on. -/
  | running
  /-- The machine has stopped, for the reason given. -/
  | stopped (why : Stop)
  deriving DecidableEq, Repr

/-- The machine's state (R20): memory, program counter, data cursor and status, and with
them the capacity of the memory, a parameter of the run that no step changes (R31; the
model's own field, log entry 9). -/
structure State where
  /-- `MEM_SIZE` (R6, R31). -/
  memSize : Nat
  /-- `M` (R20, R29). -/
  mem : Memory
  /-- The program counter, in Z (R21). -/
  pc : Int
  /-- The data cursor, in Z (R23). -/
  dp : Int
  /-- The run-status latch (R27). -/
  status : Status
  deriving DecidableEq, Repr

/-- The machine has no fault outside its own state: every exceptional condition of the spec
is a stop that its `status` records (R150, R160), and the step takes it as a next state.
So nothing raises a fault, and the type has no constructor (log entry 4; safe). -/
inductive Fault where
  deriving DecidableEq, Repr

/-- Where the model gives no state. -/
inductive Refusal where
  /-- An instruction with no meaning yet. No arm of `exec` raises it. Safe. -/
  | notModelled (mnemonic : String)
  /-- Raised by `load` for an image longer than the capacity: a load error, no machine
  state exists (R157, R183). Safe: the spec starts no run either. -/
  | imageTooLarge (length capacity : Nat)
  /-- Raised by `load` for a capacity that is not a positive multiple of 4, which R6 does
  not admit. Safe: the spec has no such machine. -/
  | illegalCapacity (capacity : Nat)
  deriving DecidableEq, Repr

/-- `s` with `pc` replaced. -/
def State.setPc (s : State) (v : Int) : State := { s with pc := v }

/-- `s` with `dp` replaced. -/
def State.setDp (s : State) (v : Int) : State := { s with dp := v }

/-- `s` with its memory replaced. -/
def State.setMem (s : State) (m : Memory) : State := { s with mem := m }

/-- `s` with the status latch replaced. -/
def State.setStatus (s : State) (v : Status) : State := { s with status := v }

/-- The machine right after a reset (R30, R181) with nothing placed in memory: an empty image,
and for the two open parameters the values of log entries 2 and 3. -/
def State.reset : State where
  memSize := resetMemSize
  mem := []
  pc := Config.pcReset
  dp := Config.dpReset
  status := .running

end Sys2Proof.Machine
end

