-- ==== Sys2Proof/Machine/Ops.lean ====
section
/-! DEFINITION. The operations that the step and the meanings share: the arithmetic of
`spec/00_scope.md` R8, the checks, memory at an address in Z, taking a stop (R160) and
the only way out of one, reset (R162, R180, R181). -/

namespace Sys2Proof.Machine

/-- `wrap32` (R8). -/
def wrap32 (z : Int) : Word := BitVec.ofInt 32 z

/-- `signed32` (R8). -/
def signed32 (u : Word) : Int := if u.toNat < 2 ^ 31 then (u.toNat : Int) else (u.toNat : Int) - 2 ^ 32

/-- `InRange(a, 4)` (R8, R46). -/
abbrev InRange (size : Nat) (a : Int) : Prop := 0 ≤ a ∧ a + 4 ≤ size

/-- `Aligned(a, 4)` (R8, R47, R48). -/
abbrev Aligned (a : Int) : Prop := a % 4 = 0

/-- `MemRead(a, 4)` at an address in Z that the caller has checked (R43). -/
def State.readWord (s : State) (a : Int) : Word := s.mem.readWord a.toNat

/-- `MemWrite(a, 4, v)` at an address in Z that the caller has checked (R44). -/
def State.writeWord (s : State) (a : Int) (v : Word) : State :=
  s.setMem (s.mem.writeWord a.toNat v)

/-- `raise Stop(reason, info)`: the latch is written and nothing else changes (R8, R160).
There is no return from a stop (R162): no operation stands beside this one but `load`. -/
def takeStop (why : Stop) (s : State) : State := s.setStatus (.stopped why)

/-- The numeric code of a cause (R151). -/
def Stop.code : Stop → Nat
  | .fetchOutOfRange _ => 1
  | .fetchMisaligned _ => 2
  | .illegalInstruction _ _ => 3
  | .dpOutOfRange _ => 4
  | .dpMisaligned _ => 5

/-- The numeric code of the latch: 0 is no cause and stands for `Running` (R151). -/
def Status.code : Status → Nat
  | .running => 0
  | .stopped why => why.code

/-- The fetch checks, range first, then alignment (R91). -/
def fetchStop (s : State) : Option Stop :=
  if ¬ InRange s.memSize s.pc then some (.fetchOutOfRange s.pc)
  else if ¬ Aligned s.pc then some (.fetchMisaligned s.pc)
  else none

/-- The instruction word that a fetch reads (R92). -/
def fetchWord (s : State) : Word := s.readWord s.pc

/-- The advance of `pc` past the fetched word (R92). -/
def advance (s : State) : State := s.setPc (s.pc + Config.instrBytes)

/-- The reset of the machine with its three parameters (R180 to R183): the image from
address 0, `MEM_INIT` above it, counted from the end of the image. -/
def load (memSize : Nat) (image : List Byte) (memInit : Nat → Byte) :
    Host.Outcome State Fault Refusal :=
  if ¬ (0 < memSize ∧ memSize % 4 = 0) then .refused (.illegalCapacity memSize)
  else if memSize < image.length then .refused (.imageTooLarge image.length memSize)
  else .next
    { memSize := memSize
      mem := Memory.ofBytes memSize (fun a =>
        match image[a]? with
        | some b => b
        | none => memInit (a - image.length))
      pc := Config.pcReset
      dp := Config.dpReset
      status := .running }

/-- The bytes of a list of instructions in address order (R84). -/
def imageOf : List Instr → List Byte
  | [] => []
  | i :: rest => encodeBytes i ++ imageOf rest

end Sys2Proof.Machine
end

