-- ==== Sys2Proof/Machine/Operands.lean ====
section
/-! DEFINITION. The machine's one operand form besides the immediate: the cell at `dp`,
register-indirect with no offset, no index and no modification (`spec/42_add.md` R113). -/

namespace Sys2Proof.Machine

/-- The checks on the cursor before a cell access, range first, then alignment (R94, R110, R120). -/
def cellStop (s : State) : Option Stop :=
  if ¬ InRange s.memSize s.dp then some (.dpOutOfRange s.dp)
  else if ¬ Aligned s.dp then some (.dpMisaligned s.dp)
  else none

/-- The raw value of the cell under the cursor (R8, R25). -/
def cellValue (s : State) : Word := s.readWord s.dp

/-- `s` with the cell under the cursor replaced (R44, R110). -/
def storeCell (s : State) (v : Word) : State := s.writeWord s.dp v

/-- Check the cursor; on a failed check take the stop, otherwise go on with the cell's
value (R94, R110, R120). -/
def withCell (s : State) (use : Word → State) : Host.Outcome State Fault Refusal :=
  match cellStop s with
  | some why => .next (takeStop why s)
  | none => .next (use (cellValue s))

end Sys2Proof.Machine
end

