-- ==== Sys2Proof/Machine/Flags.lean ====
section
/-! DEFINITION. The machine has no flags and no condition codes (`spec/10_state.md` R26).
The only condition it ever tests is that a cell is not zero, stored nowhere; it stands here. -/

namespace Sys2Proof.Machine

/-- The condition of BNZ: some bit of the cell is set (R26, R122). -/
abbrev Nonzero (v : Word) : Prop := v ≠ 0#32

end Sys2Proof.Machine
end

