-- ==== Sys2Proof/Machine/CellArithmetic.lean ====
section
/-! DEFINITION. Arithmetic on the cell under the cursor: ADD (`spec/42_add.md`). -/

namespace Sys2Proof.Machine

/-- ADD: after the checks, the cell becomes `wrap32(v + imm)`, with no overflow stop
(R110, R111); `ADD 0` makes the same access (R114). -/
def execAdd (imm : Int) (s : State) : Host.Outcome State Fault Refusal :=
  withCell s (fun v => storeCell s (wrap32 (v.toNat + imm)))

end Sys2Proof.Machine
end

