-- ==== Sys2Proof/Machine/ControlTransfer.lean ====
section
/-! DEFINITION. Control transfer: BNZ (`spec/43_bnz.md`). -/

namespace Sys2Proof.Machine

/-- BNZ: after the checks, a nonzero cell adds `imm` to `pc`, which holds `PC_after_fetch`
here (R120, R121); the target is not checked (R123). -/
def execBnz (imm : Int) (s : State) : Host.Outcome State Fault Refusal :=
  withCell s (fun v => if Nonzero v then s.setPc (s.pc + imm) else s)

end Sys2Proof.Machine
end

