-- ==== Sys2Proof/Machine/CursorMotion.lean ====
section
/-! DEFINITION. Cursor motion: RIGHT (`spec/41_right.md`). -/

namespace Sys2Proof.Machine

/-- RIGHT: `dp <- dp + imm` in Z; no check, no memory access, no stop (R100, R101). -/
def execRight (imm : Int) (s : State) : Host.Outcome State Fault Refusal :=
  .next (s.setDp (s.dp + imm))

end Sys2Proof.Machine
end

