-- ==== Sys2Proof/Machine/Reserved.lean ====
section
/-! DEFINITION. The reserved opcode 3 (`spec/30_encoding.md` R77, `spec/60_exceptions.md` R154). -/

namespace Sys2Proof.Machine

/-- Opcode 3: the stop ILLEGAL_INSTRUCTION with the address of the word, `pc - 4` after the
advance, and the word itself, rebuilt from its fields (R94, R154, R75). -/
def execReserved3 (imm : Int) (s : State) : Host.Outcome State Fault Refusal :=
  .next (takeStop (.illegalInstruction (s.pc - Config.instrBytes) (encode (.reserved3 imm))) s)

end Sys2Proof.Machine
end

