-- ==== Sys2Proof/Machine/Dispatch.lean ====
section
/-! DEFINITION. Dispatch (`spec/40_fetch_decode_execute.md` R94): one arm per constructor.
The state is the one after the advance of `pc` (R92). -/

namespace Sys2Proof.Machine

/-- Execute one decoded instruction in a state whose `pc` is `PC_after_fetch` (R94). -/
def exec (i : Instr) (s : State) : Host.Outcome State Fault Refusal :=
  match i with
  | .right imm => Sys2Proof.Machine.execRight imm s
  | .add imm => Sys2Proof.Machine.execAdd imm s
  | .bnz imm => Sys2Proof.Machine.execBnz imm s
  | .reserved3 imm => Sys2Proof.Machine.execReserved3 imm s

end Sys2Proof.Machine
end

