-- ==== Sys2Proof/Machine/Step.lean ====
section
/-! DEFINITION. The step (`spec/40_fetch_decode_execute.md` R90 to R95). -/

namespace Sys2Proof.Machine

/-- One step: a stopped machine keeps its state (R90); otherwise the fetch checks (R91),
the fetch and the advance (R92), decode (R93) and execute (R94). -/
def step (s : State) : Host.Outcome State Fault Refusal :=
  match s.status with
  | .stopped _ => .next s
  | .running =>
    match fetchStop s with
    | some why => .next (takeStop why s)
    | none => exec (decode (fetchWord s)) (advance s)

/-- `s` with the instruction of `nbits` bits of `w` stored where the next step fetches:
at `pc`. A state whose `pc` no fetch can use is left as it is (log entry 10). -/
def State.withFetchWord (s : State) (nbits w : Nat) : State :=
  if InRange s.memSize s.pc ∧ Aligned s.pc then s.writeWord s.pc (tableWord nbits w) else s

end Sys2Proof.Machine
end

