-- ==== Sys2Proof/Safety.lean ====
section
/-! DEFINITION. The terms in which statements speak of states and runs: well-formed states,
states that can fetch or use their cell, a truthful stop record, and runs that do not stop. -/

namespace Sys2Proof.Machine

/-- What the spec's state satisfies by its nature (R6, R40): a capacity that is a positive
multiple of 4, and memory in its canonical form inside that capacity. -/
abbrev State.Wf (s : State) : Prop :=
  0 < s.memSize ∧ s.memSize % 4 = 0 ∧ s.mem.wf = true ∧ s.mem.within s.memSize = true

/-- The step loop goes on (R90). -/
abbrev State.Running (s : State) : Prop := s.status = .running

/-- Both fetch checks pass (R91). -/
abbrev State.Fetchable (s : State) : Prop := InRange s.memSize s.pc ∧ Aligned s.pc

/-- Both checks on the cursor pass (R110, R120). -/
abbrev State.CellUsable (s : State) : Prop := InRange s.memSize s.dp ∧ Aligned s.dp

/-- The address `a` holds an instruction that uses the cell: its opcode is 1 or 2 (R76). -/
abbrev State.CellInstrAt (s : State) (a : Int) : Prop :=
  InRange s.memSize a ∧ Aligned a ∧
    (opcodeField (s.readWord a) = 1 ∨ opcodeField (s.readWord a) = 2)

/-- The stop record agrees with the registers and the memory it was taken from (R161): for
each cause, what `pc` and `dp` hold at the stop and what the word at the stopping
instruction is. Nothing is asked of a running machine. -/
def State.StopRecordTrue (s : State) : Prop :=
  match s.status with
  | .running => True
  | .stopped (.fetchOutOfRange a) => a = s.pc ∧ ¬ InRange s.memSize s.pc
  | .stopped (.fetchMisaligned a) => a = s.pc ∧ InRange s.memSize s.pc ∧ ¬ Aligned s.pc
  | .stopped (.illegalInstruction a w) =>
    a = s.pc - 4 ∧ InRange s.memSize a ∧ Aligned a ∧ s.readWord a = w ∧ opcodeField w = 3
  | .stopped (.dpOutOfRange a) =>
    a = s.dp ∧ ¬ InRange s.memSize s.dp ∧ s.CellInstrAt (s.pc - 4)
  | .stopped (.dpMisaligned a) =>
    a = s.dp ∧ InRange s.memSize s.dp ∧ ¬ Aligned s.dp ∧ s.CellInstrAt (s.pc - 4)

/-- A run of `k` steps from `s` ends in `t` (R96). -/
abbrev RunsTo (k : Nat) (s t : State) : Prop := Sys2Proof.core.run k s = .next t

/-- A safe run: after `k` steps the machine has not stopped (R97). -/
abbrev RunsSafely (k : Nat) (s : State) : Prop := ∃ t, RunsTo k s t ∧ t.Running

end Sys2Proof.Machine
end

