-- ==== Sys2Proof/Machine/ArrayMachine.lean ====
section
/-! DEFINITION. The machine once more, written straight from the pseudocode of
`spec/40_fetch_decode_execute.md` R90 to R94 over memory as a function of the address, with
the byte order as a parameter (R42). It shares only the types of states and stops with
`step`: fields are cut out of the word as bits and the sum is a sum of words. Statements
compare `step` with it. -/

namespace Sys2Proof.Machine

/-- Which byte of a word lies at its lowest address. -/
inductive ByteOrder where
  /-- The least significant one: the order of this hardware (R42). -/
  | little
  /-- The most significant one. -/
  | big
  deriving DecidableEq, Repr

/-- The state record of R20 with `M` as a function. It is no part of `State`. -/
structure ArrayState where
  memSize : Nat
  M : Nat → Byte
  pc : Int
  dp : Int
  status : Status

/-- The word of the four bytes at `a`. -/
def ArrayState.read (o : ByteOrder) (s : ArrayState) (a : Nat) : Word :=
  match o with
  | .little => s.M (a + 3) ++ s.M (a + 2) ++ s.M (a + 1) ++ s.M a
  | .big => s.M a ++ s.M (a + 1) ++ s.M (a + 2) ++ s.M (a + 3)

/-- The position in the word of the byte at offset `k`. -/
def ByteOrder.place : ByteOrder → Nat → Nat
  | .little, k => k
  | .big, k => 3 - k

/-- The array with the four bytes at `a` replaced by those of `v`. -/
def ArrayState.write (o : ByteOrder) (s : ArrayState) (a : Nat) (v : Word) : ArrayState :=
  { s with M := fun x =>
      if a ≤ x ∧ x < a + 4 then v.extractLsb' (8 * o.place (x - a)) 8 else s.M x }

/-- `raise Stop(reason, info)` (R160). -/
def ArrayState.stop (s : ArrayState) (why : Stop) : ArrayState := { s with status := .stopped why }

/-- The checks before a cell access and the access (R94). -/
def ArrayState.withCell (o : ByteOrder) (s : ArrayState) (use : Word → ArrayState) : ArrayState :=
  if s.dp < 0 ∨ (s.memSize : Int) < s.dp + 4 then s.stop (.dpOutOfRange s.dp)
  else if s.dp % 4 ≠ 0 then s.stop (.dpMisaligned s.dp)
  else use (s.read o s.dp.toNat)

/-- Execute the word `w` fetched from the address `a`, with `pc` advanced already (R93, R94). -/
def ArrayState.execute (o : ByteOrder) (s : ArrayState) (a : Int) (w : Word) : ArrayState :=
  let op := w.extractLsb' 30 2
  let imm := w.setWidth 30
  if op = 0#2 then { s with dp := s.dp + imm.toInt }
  else if op = 1#2 then
    s.withCell o (fun v => s.write o s.dp.toNat (v + imm.signExtend 32))
  else if op = 2#2 then
    s.withCell o (fun v => if v = 0#32 then s else { s with pc := s.pc + imm.toInt })
  else s.stop (.illegalInstruction a w)

/-- One step (R90 to R94). -/
def ArrayState.step (o : ByteOrder) (s : ArrayState) : ArrayState :=
  if s.status ≠ .running then s
  else if s.pc < 0 ∨ (s.memSize : Int) < s.pc + 4 then s.stop (.fetchOutOfRange s.pc)
  else if s.pc % 4 ≠ 0 then s.stop (.fetchMisaligned s.pc)
  else ArrayState.execute o { s with pc := s.pc + 4 } s.pc (s.read o s.pc.toNat)

/-- A state of the model read as an array machine's. -/
def State.toArrayState (s : State) : ArrayState where
  memSize := s.memSize
  M := s.mem.readByte
  pc := s.pc
  dp := s.dp
  status := s.status

/-- The bytes of every aligned word in the opposite order. -/
def ArrayState.swapped (s : ArrayState) : ArrayState :=
  { s with M := fun x => s.M (x - x % 4 + (3 - x % 4)) }

end Sys2Proof.Machine
end

