-- ==== Sys2Proof/Certificates/Slice0/Obligations.lean ====
section
/-! DEFINITION. The statements for the provers. Each docstring names the rules of `spec/` it
states or rests on. Statements about every state quantify over every capacity too, so none
rests on the capacity of `State.reset`. -/

open Sys2Proof Sys2Proof.Machine

/-! ## Encoding -/

/-- From `30_encoding.md` section 2: the encoding function, the decoding function, both
directions of the round trip, and the refusal of an immediate that is not representable.
R75 marks the round trip as the spec's own inference: "Then `Decode(Encode(op, imm)) = (op,
imm)` for every such pair, and `Encode(Decode(w)) = w` for every word `w`". -/
def Obligations.EncodeAndDecodeAreInverse : Prop :=
  (∀ i : Instr, ((encode i).toNat : Int) = i.opcode * 2 ^ 30 + i.imm % 2 ^ 30) ∧
  (∀ w : Word, (decode w).opcode = (w.extractLsb' 30 2).toNat ∧
    (decode w).imm = (w.setWidth 30).toInt) ∧
  (∀ i : Instr, -2 ^ 29 ≤ i.imm → i.imm ≤ 2 ^ 29 - 1 →
    decode (encode i) = i ∧ assemble i = some (encode i)) ∧
  (∀ i : Instr, i.imm < -2 ^ 29 ∨ 2 ^ 29 - 1 < i.imm → assemble i = none) ∧
  (∀ w : Word, (decode w).WellFormed ∧ encode (decode w) = w)

/-- From R70, R75 and R84: in a byte string, the bytes of a well-formed instruction decode to
that instruction and leave the rest of the string. -/
def Obligations.EncodedBytesDecodeInPlace : Prop :=
  ∀ (i : Instr) (rest : List Byte), i.WellFormed →
    (encodeBytes i).length = 4 ∧ decodeBytes (encodeBytes i ++ rest) = .instr i rest

/-- From `30_encoding.md` sections 2 and 3: a word is the instruction of a row exactly when its
masked bits are the row's, with the sign-extended low 30 bits as operand, and the four rows
partition all words. R76 gives the reserved row no operand: that the model keeps its low 30
bits as one is log entry 11. -/
def Obligations.OpcodeMapPartitionsTheWords : Prop :=
  ∀ w : Word,
    (w &&& 0xC0000000#32 = 0x00000000#32 ↔ decode w = .right (w.setWidth 30).toInt) ∧
    (w &&& 0xC0000000#32 = 0x40000000#32 ↔ decode w = .add (w.setWidth 30).toInt) ∧
    (w &&& 0xC0000000#32 = 0x80000000#32 ↔ decode w = .bnz (w.setWidth 30).toInt) ∧
    (w &&& 0xC0000000#32 = 0xC0000000#32 ↔ decode w = .reserved3 (w.setWidth 30).toInt) ∧
    (w &&& 0xC0000000#32 = 0x00000000#32 ∨ w &&& 0xC0000000#32 = 0x40000000#32 ∨
      w &&& 0xC0000000#32 = 0x80000000#32 ∨ w &&& 0xC0000000#32 = 0xC0000000#32)

/-- From R73 and R76: what a cell of signed value `v` executes as when `pc` reaches it. R79
marks it as the spec's own inference: "a cell value `v` that the program counter reaches
executes as follows". -/
def Obligations.CellValueReadAsInstruction : Prop :=
  ∀ w : Word,
    (0 ≤ signed32 w ∧ signed32 w < 2 ^ 29 → decode w = .right (signed32 w)) ∧
    (2 ^ 29 ≤ signed32 w ∧ signed32 w < 2 ^ 30 → decode w = .right (signed32 w - 2 ^ 30)) ∧
    (2 ^ 30 ≤ signed32 w ∧ signed32 w < 2 ^ 31 → ∃ imm, decode w = .add imm) ∧
    (-2 ^ 31 ≤ signed32 w ∧ signed32 w < -2 ^ 30 → ∃ imm, decode w = .bnz imm) ∧
    (-2 ^ 30 ≤ signed32 w ∧ signed32 w < 0 → ∃ imm, decode w = .reserved3 imm)

/-- From the tables of `spec/95_test_vectors.md` S1 and 2.1: words written out as bytes in
memory order decode to the instructions they stand for. The operand of the reserved word is log
entry 11. -/
def Obligations.WrittenOutWordsDecode : Prop :=
  decodeBytes [0xFC#8, 0xFF#8, 0xFF#8, 0x3F#8] = .instr (.right (-4)) [] ∧
  decodeBytes [0x63#8, 0x00#8, 0x00#8, 0x40#8] = .instr (.add 99) [] ∧
  decodeBytes [0x00#8, 0x00#8, 0x00#8, 0x60#8] = .instr (.add (-536870912)) [] ∧
  decodeBytes [0xF8#8, 0xFF#8, 0xFF#8, 0xBF#8] = .instr (.bnz (-8)) [] ∧
  decodeBytes [0xFF#8, 0xFF#8, 0xFF#8, 0xFF#8] = .instr (.reserved3 (-1)) []

/-- From R110, R71 and R73: the sum of an instruction word `w` and `k` keeps the opcode and
moves the 30-bit field by `k` exactly when the moved field is a 30-bit field; the immediate is
then the moved field's, and has moved by `k` exactly when its sign stays. R115 marks it as the
spec's own inference: "Adding `k` leaves the opcode unchanged and yields the field `f + k`
exactly when `0 <= f + k <= 2^30-1`". -/
def Obligations.AddOnAnInstructionWord : Prop :=
  ∀ (w : Word) (k : Int),
    ((decode (wrap32 (w.toNat + k))).opcode = (decode w).opcode ∧
        (immField (wrap32 (w.toNat + k)) : Int) = immField w + k ↔
      0 ≤ (immField w : Int) + k ∧ (immField w : Int) + k ≤ 2 ^ 30 - 1) ∧
    (0 ≤ (immField w : Int) + k → (immField w : Int) + k ≤ 2 ^ 30 - 1 →
      (decode (wrap32 (w.toNat + k))).imm = sext30 ((immField w : Int) + k).toNat ∧
      ((decode (wrap32 (w.toNat + k))).imm = (decode w).imm + k ↔
        (0 ≤ (decode w).imm ∧ 0 ≤ (decode w).imm + k ∧ (decode w).imm + k ≤ 2 ^ 29 - 1) ∨
          ((decode w).imm < 0 ∧ -2 ^ 29 ≤ (decode w).imm + k ∧ (decode w).imm + k < 0)))

/-- From R110 and R71: ADD on a cell that holds an instruction word, the carry and the borrow:
the field always moves modulo `2^30`; past the top of the field the opcode goes up by one,
below its bottom down by one, modulo 4, and then the instruction is another one; otherwise the
opcode stays. It is the spec's own inference (R115): "When `f + k` leaves `0 .. 2^30-1` the
carry or borrow runs into the opcode bits and changes the instruction". -/
def Obligations.AddCarriesIntoTheOpcode : Prop :=
  ∀ (s : State) (k : Int), s.CellUsable → -2 ^ 29 ≤ k → k ≤ 2 ^ 29 - 1 →
    ∃ t, exec (.add k) s = .next t ∧
      (immField (t.readWord s.dp) : Int) = (immField (s.readWord s.dp) + k) % 2 ^ 30 ∧
      (2 ^ 30 ≤ (immField (s.readWord s.dp) : Int) + k →
        (decode (t.readWord s.dp)).opcode = ((decode (s.readWord s.dp)).opcode + 1) % 4 ∧
        (decode (t.readWord s.dp)).opcode ≠ (decode (s.readWord s.dp)).opcode) ∧
      ((immField (s.readWord s.dp) : Int) + k < 0 →
        (decode (t.readWord s.dp)).opcode = ((decode (s.readWord s.dp)).opcode + 3) % 4 ∧
        (decode (t.readWord s.dp)).opcode ≠ (decode (s.readWord s.dp)).opcode) ∧
      (0 ≤ (immField (s.readWord s.dp) : Int) + k →
        (immField (s.readWord s.dp) : Int) + k ≤ 2 ^ 30 - 1 →
        (decode (t.readWord s.dp)).opcode = (decode (s.readWord s.dp)).opcode)

/-! ## Reset and load -/

/-- From `70_reset_and_hazards.md` section 1 (R181): the state that a reset gives for an image
that fits; and it is well formed and its first fetch, at address 0, passes the checks. The
model's own choices in it: well-formedness speaks of the canonical list (log entry 3), the
capacity is a field of State (log entry 9), and `MEM_INIT` is a function (log entry 12). -/
def Obligations.LoadGivesTheResetState : Prop :=
  ∀ (n : Nat) (image : List Byte) (memInit : Nat → Byte),
    0 < n → n % 4 = 0 → image.length ≤ n →
    ∃ s, load n image memInit = .next s ∧ s.memSize = n ∧
      (∀ a, ∀ h : a < image.length, s.mem.readByte a = image[a]) ∧
      (∀ a, image.length ≤ a → a < n → s.mem.readByte a = memInit (a - image.length)) ∧
      s.pc = 0 ∧ s.dp = 0 ∧ s.status = .running ∧ s.Wf ∧ s.Fetchable ∧
      fetchWord s = s.readWord 0

/-- R183, whole: an image longer than the capacity gives no state, and one of exactly the
capacity is loaded. -/
def Obligations.OversizeImageIsRefused : Prop :=
  ∀ (n : Nat) (image : List Byte) (memInit : Nat → Byte), 0 < n → n % 4 = 0 →
    (n < image.length → load n image memInit = .refused (.imageTooLarge image.length n)) ∧
    (image.length = n → ∃ s, load n image memInit = .next s)

/-- From R30, R6 and R161: the two invariants below hold of the constant `State.reset`. Its
capacity and its empty memory are the model's choices (log entries 2 and 3). -/
def Obligations.ResetSatisfiesTheInvariants : Prop :=
  State.reset.Wf ∧ State.reset.StopRecordTrue ∧ State.reset.Running ∧
    State.reset.pc = 0 ∧ State.reset.dp = 0

/-- From R181: the constant `State.reset` is the state that `load` gives for an empty image
and zero bytes, at the capacity chosen for it (the model's choices, log entries 2 and 3). -/
def Obligations.ResetIsALoad : Prop :=
  load resetMemSize [] (fun _ => 0#8) = .next State.reset

/-! ## Memory -/

/-- R43 and R44: the value a word read gives, the four bytes a word write sets and those it
leaves. -/
def Obligations.WordReadAndWrite : Prop :=
  ∀ (m : Memory) (a : Nat) (v : Word),
    (m.readWord a).toNat = (m.readByte a).toNat + 256 * (m.readByte (a + 1)).toNat +
      65536 * (m.readByte (a + 2)).toNat + 16777216 * (m.readByte (a + 3)).toNat ∧
    ((m.writeWord a v).readByte a).toNat = v.toNat % 256 ∧
    ((m.writeWord a v).readByte (a + 1)).toNat = v.toNat / 256 % 256 ∧
    ((m.writeWord a v).readByte (a + 2)).toNat = v.toNat / 65536 % 256 ∧
    ((m.writeWord a v).readByte (a + 3)).toNat = v.toNat / 16777216 % 256 ∧
    (∀ b, b < a ∨ a + 4 ≤ b → (m.writeWord a v).readByte b = m.readByte b)

/-- From R43 and R44: a written word reads back. R44 marks it as the spec's own inference:
"After it, `MemRead(a,4) = v`". -/
def Obligations.WordReadsBackAsWritten : Prop :=
  ∀ (m : Memory) (a b : Nat) (v : Word),
    (m.writeWord a v).readWord a = v ∧
    (b + 4 ≤ a ∨ a + 4 ≤ b → (m.writeWord a v).readWord b = m.readWord b)

/-- From R40: two canonical lists with the same bytes are the same list, so that equal arrays
are equal data. -/
def Obligations.CanonicalMemoryIsUnique : Prop :=
  ∀ m m' : Memory, m.wf = true → m'.wf = true → (∀ a, m.readByte a = m'.readByte a) → m = m'

/-- From R6, R40, R46 and R110: every step keeps a state well formed. -/
def Obligations.StepKeepsStatesWellFormed : Prop :=
  ∀ s t : State, s.Wf → step s = .next t → t.Wf

/-! ## RIGHT -/

/-- From R100 and R101: RIGHT runs in every state, with any operand, and moves the cursor
and nothing else. -/
def Obligations.RightCompletes : Prop :=
  ∀ (imm : Int) (s : State), exec (.right imm) s = .next { s with dp := s.dp + imm }

/-- R100, whole: the step that fetches the word `imm mod 2^30` moves the cursor by `imm`,
advances `pc` and changes nothing else, wherever the cursor goes. -/
def Obligations.RightStep : Prop :=
  ∀ (s : State) (imm : Int), s.Running → s.Fetchable → -2 ^ 29 ≤ imm → imm ≤ 2 ^ 29 - 1 →
    ((fetchWord s).toNat : Int) = imm % 2 ^ 30 →
    step s = .next { s with pc := s.pc + 4, dp := s.dp + imm }

/-! ## ADD -/

/-- From R110 and R111: with the cursor in range and aligned, ADD runs for every operand and
every value of the cell, and writes the cell and nothing else. -/
def Obligations.AddCompletes : Prop :=
  ∀ (imm : Int) (s : State), InRange s.memSize s.dp → Aligned s.dp →
    exec (.add imm) s =
      .next { s with mem := s.mem.writeWord s.dp.toNat (wrap32 ((s.readWord s.dp).toNat + imm)) }

/-- R110, whole: the step that fetches the word `2^30 + imm mod 2^30`: the two checks in
their order, then the new value of the cell, and everything that stays. -/
def Obligations.AddStep : Prop :=
  ∀ (s : State) (imm : Int), s.Running → s.Fetchable → -2 ^ 29 ≤ imm → imm ≤ 2 ^ 29 - 1 →
    ((fetchWord s).toNat : Int) = 2 ^ 30 + imm % 2 ^ 30 →
    (¬ InRange s.memSize s.dp →
      step s = .next { s with pc := s.pc + 4, status := .stopped (.dpOutOfRange s.dp) }) ∧
    (InRange s.memSize s.dp → ¬ Aligned s.dp →
      step s = .next { s with pc := s.pc + 4, status := .stopped (.dpMisaligned s.dp) }) ∧
    (InRange s.memSize s.dp → Aligned s.dp →
      ∃ t, step s = .next t ∧ t.memSize = s.memSize ∧ t.pc = s.pc + 4 ∧ t.dp = s.dp ∧
        t.status = s.status ∧
        ((t.readWord s.dp).toNat : Int) = ((s.readWord s.dp).toNat + imm) % 2 ^ 32 ∧
        ∀ b : Nat, (b : Int) < s.dp ∨ s.dp + 4 ≤ b → t.mem.readByte b = s.mem.readByte b)

/-- R111, whole: the sum wraps in 32-bit two's complement and never stops the machine; the
signed and the raw reading of the new value agree. -/
def Obligations.AddWrapsAround : Prop :=
  ∀ (imm : Int) (s : State), InRange s.memSize s.dp → Aligned s.dp →
    ∃ t, exec (.add imm) s = .next t ∧ t.status = s.status ∧
      ((t.readWord s.dp).toNat : Int) = ((s.readWord s.dp).toNat + imm) % 2 ^ 32 ∧
      signed32 (t.readWord s.dp) =
        (if (signed32 (s.readWord s.dp) + imm) % 2 ^ 32 < 2 ^ 31
          then (signed32 (s.readWord s.dp) + imm) % 2 ^ 32
          else (signed32 (s.readWord s.dp) + imm) % 2 ^ 32 - 2 ^ 32)

/-- From R56 (a) and R115: an ADD whose cursor is at the next instruction changes it, and the
changed word is what the next step runs. R56 marks its cases (a) to (c) as the spec's own
inference: "changes that instruction before it is fetched, and the changed word is what
executes". -/
def Obligations.StoreIsSeenByTheNextFetch : Prop :=
  ∀ (s : State) (imm : Int), s.Running → s.Fetchable → decode (fetchWord s) = .add imm →
    s.dp = s.pc + 4 → InRange s.memSize s.dp →
    ∃ t, step s = .next t ∧ t.pc = s.dp ∧
      fetchWord t = wrap32 ((s.readWord s.dp).toNat + imm) ∧
      step t = exec (decode (wrap32 ((s.readWord s.dp).toNat + imm))) { t with pc := t.pc + 4 }

/-! ## BNZ -/

/-- From R120: with the cursor in range and aligned, BNZ runs for every operand and every
value of the cell, and changes `pc` at most. -/
def Obligations.BnzCompletes : Prop :=
  ∀ (imm : Int) (s : State), InRange s.memSize s.dp → Aligned s.dp →
    exec (.bnz imm) s =
      .next { s with pc := if s.readWord s.dp = 0#32 then s.pc else s.pc + imm }

/-- R120, whole: the step that fetches the word `2^31 + imm mod 2^30`: the two checks in
their order, then the branch from the following instruction, taken when the cell is nonzero. -/
def Obligations.BnzStep : Prop :=
  ∀ (s : State) (imm : Int), s.Running → s.Fetchable → -2 ^ 29 ≤ imm → imm ≤ 2 ^ 29 - 1 →
    ((fetchWord s).toNat : Int) = 2 ^ 31 + imm % 2 ^ 30 →
    (¬ InRange s.memSize s.dp →
      step s = .next { s with pc := s.pc + 4, status := .stopped (.dpOutOfRange s.dp) }) ∧
    (InRange s.memSize s.dp → ¬ Aligned s.dp →
      step s = .next { s with pc := s.pc + 4, status := .stopped (.dpMisaligned s.dp) }) ∧
    (InRange s.memSize s.dp → Aligned s.dp → s.readWord s.dp ≠ 0#32 →
      step s = .next { s with pc := s.pc + 4 + imm }) ∧
    (InRange s.memSize s.dp → Aligned s.dp → s.readWord s.dp = 0#32 →
      step s = .next { s with pc := s.pc + 4 })

/-- R123, whole: a taken BNZ to a target that no fetch can use completes normally, and the
next step stops with the bad target on record. -/
def Obligations.BadTargetStopsAtTheNextFetch : Prop :=
  ∀ (s : State) (imm : Int), s.Running → s.Fetchable → decode (fetchWord s) = .bnz imm →
    s.CellUsable → s.readWord s.dp ≠ 0#32 →
    ∃ t, step s = .next t ∧ t = { s with pc := s.pc + 4 + imm } ∧
      (¬ InRange s.memSize t.pc →
        step t = .next { t with status := .stopped (.fetchOutOfRange t.pc) }) ∧
      (InRange s.memSize t.pc → ¬ Aligned t.pc →
        step t = .next { t with status := .stopped (.fetchMisaligned t.pc) })

/-- From R56 (c) and R126: a BNZ whose cursor is at its own address tests its own word and is
taken, whatever its operand. It is the spec's own inference: "a BNZ whose `dp` equals its own
address tests its own instruction word, which is nonzero". -/
def Obligations.BnzOnItsOwnWordIsTaken : Prop :=
  ∀ (s : State) (imm : Int), s.Running → s.Fetchable → decode (fetchWord s) = .bnz imm →
    s.dp = s.pc → step s = .next { s with pc := s.pc + 4 + imm }

/-- From R126 and R96: the word `0xBFFFFFFC`, `BNZ -4`, on a nonzero cell is a state the
machine never leaves and never stops in. It is the spec's own inference (R126): "branches to
itself; since nothing changes the cell, the run never ends". -/
def Obligations.BranchToItselfNeverEnds : Prop :=
  ∀ (k : Nat) (s : State), s.Running → s.Fetchable → fetchWord s = 0xBFFFFFFC#32 →
    s.CellUsable → s.readWord s.dp ≠ 0#32 → RunsTo k s s

/-! ## The reserved opcode and the other stops -/

/-- From R94 and R154: the effect of opcode 3 is its stop, in every state: the latch records
the address of the word and the word, and nothing else changes. The word is the one that the
reserved row's operand stands for: that the row has an operand and the word is rebuilt from it
is log entry 11, which rests on `30_encoding.md` section 2. -/
def Obligations.Reserved3Completes : Prop :=
  ∀ (imm : Int) (s : State), exec (.reserved3 imm) s =
    .next { s with status := .stopped (.illegalInstruction (s.pc - 4)
      (BitVec.ofNat 32 (3 * 2 ^ 30 + (imm % 2 ^ 30).toNat))) }

/-- R154 and R77: every one of the words `0xC0000000 .. 0xFFFFFFFF`, when fetched, stops the
machine with its address and itself on record and `pc` past it; as data it is a negative
number. -/
def Obligations.ReservedWordStopsTheMachine : Prop :=
  (∀ s : State, s.Running → s.Fetchable → 0xC0000000 ≤ (fetchWord s).toNat →
    step s = .next { s with
      pc := s.pc + 4, status := .stopped (.illegalInstruction s.pc (fetchWord s)) }) ∧
  (∀ w : Word, 0xC0000000 ≤ w.toNat → -2 ^ 30 ≤ signed32 w ∧ signed32 w ≤ -1)

/-- R91, whole: the fetch checks, range first, then alignment; `pc` is not advanced. -/
def Obligations.FetchChecks : Prop :=
  ∀ s : State, s.Running →
    (¬ (0 ≤ s.pc ∧ s.pc + 4 ≤ s.memSize) →
      step s = .next { s with status := .stopped (.fetchOutOfRange s.pc) }) ∧
    (0 ≤ s.pc → s.pc + 4 ≤ s.memSize → s.pc % 4 ≠ 0 →
      step s = .next { s with status := .stopped (.fetchMisaligned s.pc) })

/-- From R155 and R156: where ADD and BNZ trap: with the cursor out of range, and otherwise
when it is misaligned; nothing but the latch changes. RIGHT never does (R101). -/
def Obligations.CursorChecks : Prop :=
  ∀ (imm : Int) (s : State),
    (¬ InRange s.memSize s.dp →
      exec (.add imm) s = .next { s with status := .stopped (.dpOutOfRange s.dp) } ∧
      exec (.bnz imm) s = .next { s with status := .stopped (.dpOutOfRange s.dp) }) ∧
    (InRange s.memSize s.dp → ¬ Aligned s.dp →
      exec (.add imm) s = .next { s with status := .stopped (.dpMisaligned s.dp) } ∧
      exec (.bnz imm) s = .next { s with status := .stopped (.dpMisaligned s.dp) }) ∧
    (∀ t, exec (.right imm) s = .next t → t.status = s.status)

/-- R151 and R159: each of the five causes is taken exactly under its condition, in the fixed
order of the checks, with the `info` of its row, and bears its code. -/
def Obligations.StopCausesAreExact : Prop :=
  (∀ s t : State, s.Running → step s = .next t →
    (∀ a, t.status = .stopped (.fetchOutOfRange a) ↔ ¬ InRange s.memSize s.pc ∧ a = s.pc) ∧
    (∀ a, t.status = .stopped (.fetchMisaligned a) ↔
      InRange s.memSize s.pc ∧ ¬ Aligned s.pc ∧ a = s.pc) ∧
    (∀ a w, t.status = .stopped (.illegalInstruction a w) ↔
      s.Fetchable ∧ (fetchWord s).extractLsb' 30 2 = 3#2 ∧ a = s.pc ∧ w = fetchWord s) ∧
    (∀ a, t.status = .stopped (.dpOutOfRange a) ↔
      s.Fetchable ∧ ((fetchWord s).extractLsb' 30 2 = 1#2 ∨ (fetchWord s).extractLsb' 30 2 = 2#2) ∧
        ¬ InRange s.memSize s.dp ∧ a = s.dp) ∧
    (∀ a, t.status = .stopped (.dpMisaligned a) ↔
      s.Fetchable ∧ ((fetchWord s).extractLsb' 30 2 = 1#2 ∨ (fetchWord s).extractLsb' 30 2 = 2#2) ∧
        InRange s.memSize s.dp ∧ ¬ Aligned s.dp ∧ a = s.dp)) ∧
  (∀ (a : Int) (w : Word), (Stop.fetchOutOfRange a).code = 1 ∧ (Stop.fetchMisaligned a).code = 2 ∧
    (Stop.illegalInstruction a w).code = 3 ∧ (Stop.dpOutOfRange a).code = 4 ∧
    (Stop.dpMisaligned a).code = 5) ∧
  Status.running.code = 0

/-- From R91 to R94 and R160: what `pc`, `dp` and memory hold at a stop, by the code of its
cause. The table is the spec's own inference (R161, "State at a stop, by cause"). -/
def Obligations.StopsArePrecise : Prop :=
  ∀ s t : State, s.Running → step s = .next t → ¬ t.Running →
    t.mem = s.mem ∧ t.dp = s.dp ∧ t.memSize = s.memSize ∧
    ((t.status.code = 1 ∨ t.status.code = 2) ∧ t.pc = s.pc ∨
      (t.status.code = 3 ∨ t.status.code = 4 ∨ t.status.code = 5) ∧ t.pc = s.pc + 4)

/-- R90: a stopped machine takes no step: it keeps its whole state however often it is
stepped. That stepping it answers the same state is the model's reading (log entry 4). -/
def Obligations.StoppedMachineKeepsItsState : Prop :=
  ∀ (k : Nat) (s : State) (why : Stop), s.status = .stopped why → RunsTo k s s

/-- From R91 to R94 and R160: the stop record agrees with the registers and the memory it was
taken from, and every step keeps it so. What the record says of them is the spec's own
inference (R161, "State at a stop, by cause"). -/
def Obligations.StepKeepsTheStopRecordTrue : Prop :=
  ∀ s t : State, s.StopRecordTrue → step s = .next t → t.StopRecordTrue

/-! ## The step and the whole machine -/

/-- From R92 to R94: when the bytes at `pc` decode to an instruction, the step is that
instruction run on the state with `pc` advanced by 4. -/
def Obligations.StepRunsTheDecodedInstruction : Prop :=
  ∀ (s : State) (i : Instr), s.Running → s.Fetchable →
    decodeBytes [s.mem.readByte s.pc.toNat, s.mem.readByte (s.pc.toNat + 1),
      s.mem.readByte (s.pc.toNat + 2), s.mem.readByte (s.pc.toNat + 3)] = .instr i [] →
    step s = exec i { s with pc := s.pc + 4 }

/-- From R43, R44 and R92: a word placed where the machine fetches is the one it runs next. -/
def Obligations.PlacedWordRunsNext : Prop :=
  ∀ (s : State) (w : Word), s.Running → s.Fetchable →
    step (s.withFetchWord 32 w.toNat) =
      exec (decode w) { s with pc := s.pc + 4, mem := s.mem.writeWord s.pc.toNat w }

/-- From R95: the step is total: it always answers a next state, so nothing faults and no
instruction is refused. It is the spec's own inference (R95): "The step is a total
deterministic function of the state `(M, pc, dp, status)` and the parameter `MEM_SIZE`"; that
a stop is a next state is the model's choice (log entry 4). -/
def Obligations.StepAlwaysAnswersNext : Prop :=
  ∀ s : State, ∃ t, step s = .next t

/-- From R100, R110, R120 and R154: the frame of every instruction: what executing it leaves
as it was. The store of ADD goes to the four bytes at the cursor. -/
def Obligations.ExecFrame : Prop :=
  ∀ (i : Instr) (s t : State), exec i s = .next t →
    t.memSize = s.memSize ∧
    ((∀ imm, i ≠ .right imm) → t.dp = s.dp) ∧
    ((∀ imm, i ≠ .bnz imm) → t.pc = s.pc) ∧
    ((∀ imm, i ≠ .add imm) → ∀ b, t.mem.readByte b = s.mem.readByte b) ∧
    (∀ imm, i = .add imm → ∀ b : Nat, (b : Int) < s.dp ∨ s.dp + 4 ≤ b →
      t.mem.readByte b = s.mem.readByte b) ∧
    (¬ s.CellUsable → ∀ b, t.mem.readByte b = s.mem.readByte b) ∧
    (∀ imm, i = .right imm → t.status = s.status) ∧
    ((∀ imm, i ≠ .reserved3 imm) → s.CellUsable → t.status = s.status)

/-- From R20, R23 and R24: only RIGHT moves the cursor, and by its operand. -/
def Obligations.OnlyRightMovesTheCursor : Prop :=
  ∀ s t : State, step s = .next t → t.dp ≠ s.dp →
    s.Running ∧ s.Fetchable ∧ ∃ imm, decode (fetchWord s) = .right imm ∧ t.dp = s.dp + imm

/-- From R20, R41 and R50: only ADD writes memory, and only the cell at the cursor. -/
def Obligations.OnlyAddWritesMemory : Prop :=
  ∀ (s t : State) (b : Nat), step s = .next t → t.mem.readByte b ≠ s.mem.readByte b →
    s.Running ∧ s.Fetchable ∧ s.CellUsable ∧ (∃ imm, decode (fetchWord s) = .add imm) ∧
      s.dp ≤ b ∧ (b : Int) < s.dp + 4

/-- From R22: where `pc` can go in a step of a running machine: it advances by 4, a taken
BNZ adds its operand, and a failed fetch leaves it. -/
def Obligations.ProgramCounterMovesAsStated : Prop :=
  ∀ s t : State, s.Running → step s = .next t →
    (s.Fetchable ∧ t.pc = s.pc + 4) ∨
    (s.Fetchable ∧ s.CellUsable ∧ s.readWord s.dp ≠ 0#32 ∧ t.Running ∧
      ∃ imm, decode (fetchWord s) = .bnz imm ∧ t.pc = s.pc + 4 + imm) ∨
    (¬ s.Fetchable ∧ ¬ t.Running ∧ t.pc = s.pc)

/-- From R31 and R6: no run changes the capacity. -/
def Obligations.RunKeepsTheCapacity : Prop :=
  ∀ (k : Nat) (s t : State), RunsTo k s t → t.memSize = s.memSize

/-- From R103, R48 and R153: with every operand of RIGHT and BNZ a multiple of 4, an aligned
`pc` and an aligned cursor stay aligned. For the cursor it is the spec's own inference (R103):
"Software that moves `dp` only by multiples of 4 from the reset value 0 keeps it aligned for
ever". -/
def Obligations.AlignedOperandsKeepAlignment : Prop :=
  ∀ s t : State, Aligned s.pc → Aligned s.dp →
    (s.Running → s.Fetchable →
      (decode (fetchWord s)).opcode = 0 ∨ (decode (fetchWord s)).opcode = 2 →
      (decode (fetchWord s)).imm % 4 = 0) →
    step s = .next t → Aligned t.pc ∧ Aligned t.dp

/-- From R41 and R51: a step depends on memory only through the fetched word and the cell
under the cursor: two states that agree on these and on the registers move alike, and a byte
on which they agree is left equal. -/
def Obligations.StepReadsOnlyTheWordAndTheCell : Prop :=
  ∀ s s' t t' : State,
    s.memSize = s'.memSize → s.pc = s'.pc → s.dp = s'.dp → s.status = s'.status →
    fetchWord s = fetchWord s' → s.readWord s.dp = s'.readWord s'.dp →
    step s = .next t → step s' = .next t' →
    t.pc = t'.pc ∧ t.dp = t'.dp ∧ t.status = t'.status ∧
      ∀ b, s.mem.readByte b = s'.mem.readByte b → t.mem.readByte b = t'.mem.readByte b

/-- From R185 and R152: from an aligned `pc` with nothing but zero bytes up to the end of
memory, the machine runs `RIGHT 0` to the end and stops at `pc = MEM_SIZE`; it does not wrap.
R185: "If that memory is zero it executes as `RIGHT 0` and the run ends with
`FETCH_OUT_OF_RANGE` at `pc = MEM_SIZE`". -/
def Obligations.ZeroMemoryRunsOffTheEnd : Prop :=
  ∀ (n : Nat) (s : State), s.Running → 0 ≤ s.pc → s.pc + 4 * n = s.memSize →
    s.memSize % 4 = 0 →
    (∀ a : Nat, s.pc ≤ a → a < s.memSize → s.mem.readByte a = 0#8) →
    RunsTo (n + 1) s
      { s with pc := s.memSize, status := .stopped (.fetchOutOfRange s.memSize) }

/-- R94 with R90 to R93: the step is the pseudocode's: read as a machine over memory as a
function of the address, every state steps as `ArrayState.step` does. -/
def Obligations.StepRefinesThePseudocode : Prop :=
  ∀ s : State, ∃ t, step s = .next t ∧ t.toArrayState = s.toArrayState.step .little

/-- From R42 (c): no program can observe the byte order: wherever a step of this machine goes,
the machine of the opposite order, started on the same state with the bytes of every aligned
word reversed, goes to the same state so reversed. It is the
spec's own inference (R42): "no program can observe the byte order by itself". -/
def Obligations.ByteOrderIsUnobservable : Prop :=
  ∀ s t : State, step s = .next t →
    s.toArrayState.swapped.step .big = t.toArrayState.swapped
end

