-- ==== Sys2Proof/Laws/State.lean ====
section
/-! SUPPORT. What each update of the state leaves in each field, once, so that no later proof
unfolds a record update. -/

namespace Sys2Proof.Machine

@[simp] theorem State.setPc_memSize (s : State) (v : Int) : (s.setPc v).memSize = s.memSize := rfl
@[simp] theorem State.setPc_mem (s : State) (v : Int) : (s.setPc v).mem = s.mem := rfl
@[simp] theorem State.setPc_pc (s : State) (v : Int) : (s.setPc v).pc = v := rfl
@[simp] theorem State.setPc_dp (s : State) (v : Int) : (s.setPc v).dp = s.dp := rfl
@[simp] theorem State.setPc_status (s : State) (v : Int) : (s.setPc v).status = s.status := rfl

@[simp] theorem State.setDp_memSize (s : State) (v : Int) : (s.setDp v).memSize = s.memSize := rfl
@[simp] theorem State.setDp_mem (s : State) (v : Int) : (s.setDp v).mem = s.mem := rfl
@[simp] theorem State.setDp_pc (s : State) (v : Int) : (s.setDp v).pc = s.pc := rfl
@[simp] theorem State.setDp_dp (s : State) (v : Int) : (s.setDp v).dp = v := rfl
@[simp] theorem State.setDp_status (s : State) (v : Int) : (s.setDp v).status = s.status := rfl

@[simp] theorem State.setMem_memSize (s : State) (v : Memory) : (s.setMem v).memSize = s.memSize := rfl
@[simp] theorem State.setMem_mem (s : State) (v : Memory) : (s.setMem v).mem = v := rfl
@[simp] theorem State.setMem_pc (s : State) (v : Memory) : (s.setMem v).pc = s.pc := rfl
@[simp] theorem State.setMem_dp (s : State) (v : Memory) : (s.setMem v).dp = s.dp := rfl
@[simp] theorem State.setMem_status (s : State) (v : Memory) : (s.setMem v).status = s.status := rfl

@[simp] theorem State.setStatus_memSize (s : State) (v : Status) : (s.setStatus v).memSize = s.memSize := rfl
@[simp] theorem State.setStatus_mem (s : State) (v : Status) : (s.setStatus v).mem = s.mem := rfl
@[simp] theorem State.setStatus_pc (s : State) (v : Status) : (s.setStatus v).pc = s.pc := rfl
@[simp] theorem State.setStatus_dp (s : State) (v : Status) : (s.setStatus v).dp = s.dp := rfl
@[simp] theorem State.setStatus_status (s : State) (v : Status) : (s.setStatus v).status = v := rfl

@[simp] theorem takeStop_memSize (why : Stop) (s : State) : (takeStop why s).memSize = s.memSize := rfl
@[simp] theorem takeStop_mem (why : Stop) (s : State) : (takeStop why s).mem = s.mem := rfl
@[simp] theorem takeStop_pc (why : Stop) (s : State) : (takeStop why s).pc = s.pc := rfl
@[simp] theorem takeStop_dp (why : Stop) (s : State) : (takeStop why s).dp = s.dp := rfl
@[simp] theorem takeStop_status (why : Stop) (s : State) : (takeStop why s).status = .stopped why := rfl

@[simp] theorem advance_memSize (s : State) : (advance s).memSize = s.memSize := rfl
@[simp] theorem advance_mem (s : State) : (advance s).mem = s.mem := rfl
@[simp] theorem advance_pc (s : State) : (advance s).pc = s.pc + 4 := rfl
@[simp] theorem advance_dp (s : State) : (advance s).dp = s.dp := rfl
@[simp] theorem advance_status (s : State) : (advance s).status = s.status := rfl

@[simp] theorem State.writeWord_memSize (s : State) (a : Int) (v : Word) :
    (s.writeWord a v).memSize = s.memSize := rfl
@[simp] theorem State.writeWord_mem (s : State) (a : Int) (v : Word) :
    (s.writeWord a v).mem = s.mem.writeWord a.toNat v := rfl
@[simp] theorem State.writeWord_pc (s : State) (a : Int) (v : Word) :
    (s.writeWord a v).pc = s.pc := rfl
@[simp] theorem State.writeWord_dp (s : State) (a : Int) (v : Word) :
    (s.writeWord a v).dp = s.dp := rfl
@[simp] theorem State.writeWord_status (s : State) (a : Int) (v : Word) :
    (s.writeWord a v).status = s.status := rfl

@[simp] theorem storeCell_memSize (s : State) (v : Word) : (storeCell s v).memSize = s.memSize := rfl
@[simp] theorem storeCell_mem (s : State) (v : Word) : (storeCell s v).mem = s.mem.writeWord s.dp.toNat v := rfl
@[simp] theorem storeCell_pc (s : State) (v : Word) : (storeCell s v).pc = s.pc := rfl
@[simp] theorem storeCell_dp (s : State) (v : Word) : (storeCell s v).dp = s.dp := rfl
@[simp] theorem storeCell_status (s : State) (v : Word) : (storeCell s v).status = s.status := rfl

/-- A cell is read from memory at the cursor. -/
theorem cellValue_eq (s : State) : cellValue s = s.mem.readWord s.dp.toNat := rfl

/-- A fetch reads memory at the program counter. -/
theorem fetchWord_eq (s : State) : fetchWord s = s.mem.readWord s.pc.toNat := rfl

/-- The advance does not change what the cell under the cursor holds. -/
@[simp] theorem cellValue_advance (s : State) : cellValue (advance s) = cellValue s := rfl

/-- The advance does not change whether the cell under the cursor can be used. -/
@[simp] theorem cellStop_advance (s : State) : cellStop (advance s) = cellStop s := rfl

end Sys2Proof.Machine
end

