-- ==== Sys2Proof/Laws/Memory.lean ====
section
/-! SUPPORT. What reading and writing memory do, and that every memory operation keeps the
canonical form (`Memory.wf`) and the capacity (`Memory.within`). -/

namespace Sys2Proof.Machine

variable {m : Memory} {a b n : Nat} {v : Byte}

@[simp] theorem Memory.readByte_nil (a : Nat) : Memory.readByte [] a = unlistedByte := rfl

theorem Memory.readByte_cons (c : Host.Cell) (m : Memory) (a : Nat) :
    Memory.readByte (c :: m) a = if c.1 = a then c.2 else Memory.readByte m a := rfl

/-- An address the list does not name reads as an unlisted byte. -/
theorem Memory.readByte_of_not_listed (h : ∀ c ∈ m, c.1 ≠ a) : m.readByte a = unlistedByte := by
  induction m with
  | nil => rfl
  | cons c m ih =>
    rw [Memory.readByte_cons, if_neg (h c (by simp))]
    exact ih fun d hd => h d (by simp [hd])

/-- Dropping the entry of `a` unlists `a` and nothing else. -/
theorem Memory.readByte_dropByte (m : Memory) (a b : Nat) :
    (m.dropByte a).readByte b = if b = a then unlistedByte else m.readByte b := by
  induction m with
  | nil => simp [Memory.dropByte]
  | cons c m ih =>
    by_cases hc : c.1 = a
    · have : Memory.dropByte (c :: m) a = Memory.dropByte m a := by simp [Memory.dropByte, hc]
      rw [this, ih, Memory.readByte_cons]
      split
      · rfl
      · rw [if_neg (by omega)]
    · have : Memory.dropByte (c :: m) a = c :: Memory.dropByte m a := by simp [Memory.dropByte, hc]
      rw [this, Memory.readByte_cons, Memory.readByte_cons, ih]
      split
      · rw [if_neg (by omega)]
      · rfl

/-- Placing an entry for an address that is not listed sets that address and nothing else. -/
theorem Memory.readByte_placeByte (h : ∀ c ∈ m, c.1 ≠ a) (v : Byte) (b : Nat) :
    (m.placeByte a v).readByte b = if b = a then v else m.readByte b := by
  induction m with
  | nil => simp [Memory.placeByte, Memory.readByte, eq_comm]
  | cons c m ih =>
    have hc : c.1 ≠ a := h c (by simp)
    by_cases hlt : a < c.1
    · rw [show Memory.placeByte (c :: m) a v = (a, v) :: c :: m by simp [Memory.placeByte, hlt],
        Memory.readByte_cons]
      simp only [eq_comm]
    · rw [show Memory.placeByte (c :: m) a v = c :: Memory.placeByte m a v by
        simp [Memory.placeByte, hlt], Memory.readByte_cons, Memory.readByte_cons,
        ih fun d hd => h d (by simp [hd])]
      split
      · rw [if_neg (by omega)]
      · rfl

theorem Memory.mem_dropByte {c : Host.Cell} : c ∈ m.dropByte a ↔ c ∈ m ∧ c.1 ≠ a := by
  simp [Memory.dropByte]

theorem Memory.mem_placeByte {c : Host.Cell} : c ∈ m.placeByte a v ↔ c = (a, v) ∨ c ∈ m := by
  induction m with
  | nil => simp [Memory.placeByte]
  | cons d m ih =>
    by_cases hlt : a < d.1
    · simp [Memory.placeByte, hlt]
    · rw [show Memory.placeByte (d :: m) a v = d :: Memory.placeByte m a v by
        simp [Memory.placeByte, hlt], List.mem_cons, ih, List.mem_cons]
      tauto

/-- READ AFTER WRITE, one byte: the written address reads as written, every other address as
before (R51). It holds of every list, canonical or not. -/
theorem Memory.readByte_writeByte (m : Memory) (a : Nat) (v : Byte) (b : Nat) :
    (m.writeByte a v).readByte b = if b = a then v else m.readByte b := by
  unfold Memory.writeByte
  split
  · next h => rw [Memory.readByte_dropByte, h]
  · rw [Memory.readByte_placeByte fun c hc => (Memory.mem_dropByte.1 hc).2,
      Memory.readByte_dropByte]
    split <;> rfl

/-- A written word, byte by byte (R44): the four addressed bytes are the word's, lowest
first, and every other address reads as before. -/
theorem Memory.readByte_writeWord (m : Memory) (a : Nat) (v : Word) (b : Nat) :
    (m.writeWord a v).readByte b =
      if a ≤ b ∧ b < a + 4 then byteOfWord v (b - a) else m.readByte b := by
  simp only [Memory.writeWord, Memory.readByte_writeByte]
  by_cases h3 : b = a + 3
  · simp [h3]
  by_cases h2 : b = a + 2
  · simp [h2]
  by_cases h1 : b = a + 1
  · simp [h1]
  by_cases h0 : b = a
  · simp [h0]
  rw [if_neg h3, if_neg h2, if_neg h1, if_neg h0, if_neg (by omega)]

/-! The canonical form. -/

theorem Memory.wf_cons (c : Host.Cell) (m : Memory) :
    Memory.wf (c :: m) = true ↔
      c.2 ≠ unlistedByte ∧ (∀ d ∈ m, c.1 < d.1) ∧ Memory.wf m = true := by
  simp [Memory.wf, and_assoc]

theorem Memory.wf_dropByte (h : m.wf = true) (a : Nat) : (m.dropByte a).wf = true := by
  induction m with
  | nil => rfl
  | cons c m ih =>
    obtain ⟨hv, hlt, hm⟩ := (Memory.wf_cons c m).1 h
    by_cases hc : c.1 = a
    · rw [show Memory.dropByte (c :: m) a = Memory.dropByte m a by simp [Memory.dropByte, hc]]
      exact ih hm
    · rw [show Memory.dropByte (c :: m) a = c :: Memory.dropByte m a by
        simp [Memory.dropByte, hc], Memory.wf_cons]
      exact ⟨hv, fun d hd => hlt d (Memory.mem_dropByte.1 hd).1, ih hm⟩

theorem Memory.wf_placeByte (h : m.wf = true) (ha : ∀ c ∈ m, c.1 ≠ a) (hv : v ≠ unlistedByte) :
    (m.placeByte a v).wf = true := by
  induction m with
  | nil => simp [Memory.placeByte, Memory.wf, hv]
  | cons c m ih =>
    obtain ⟨hcv, hlt, hm⟩ := (Memory.wf_cons c m).1 h
    have hca : c.1 ≠ a := ha c (by simp)
    by_cases hac : a < c.1
    · rw [show Memory.placeByte (c :: m) a v = (a, v) :: c :: m by simp [Memory.placeByte, hac],
        Memory.wf_cons]
      refine ⟨hv, fun d hd => ?_, h⟩
      rcases List.mem_cons.1 hd with rfl | hd
      · exact hac
      · exact hac.trans (hlt d hd)
    · rw [show Memory.placeByte (c :: m) a v = c :: Memory.placeByte m a v by
        simp [Memory.placeByte, hac], Memory.wf_cons]
      refine ⟨hcv, fun d hd => ?_, ih hm fun d hd => ha d (by simp [hd])⟩
      rcases Memory.mem_placeByte.1 hd with rfl | hd
      · simp only; omega
      · exact hlt d hd

/-- Writing a byte keeps the canonical form. -/
theorem Memory.wf_writeByte (h : m.wf = true) (a : Nat) (v : Byte) :
    (m.writeByte a v).wf = true := by
  unfold Memory.writeByte
  split
  · exact Memory.wf_dropByte h a
  · next hv =>
    exact Memory.wf_placeByte (Memory.wf_dropByte h a)
      (fun c hc => (Memory.mem_dropByte.1 hc).2) hv

/-- Writing a word keeps the canonical form. -/
theorem Memory.wf_writeWord (h : m.wf = true) (a : Nat) (v : Word) :
    (m.writeWord a v).wf = true :=
  Memory.wf_writeByte (Memory.wf_writeByte (Memory.wf_writeByte (Memory.wf_writeByte h _ _) _ _)
    _ _) _ _

theorem Memory.within_iff : m.within n = true ↔ ∀ c ∈ m, c.1 < n := by
  simp [Memory.within]

/-- Writing a byte below the capacity lists nothing above it. -/
theorem Memory.within_writeByte (h : m.within n = true) (ha : a < n) (v : Byte) :
    (m.writeByte a v).within n = true := by
  rw [Memory.within_iff] at h ⊢
  intro c hc
  unfold Memory.writeByte at hc
  split at hc
  · exact h c (Memory.mem_dropByte.1 hc).1
  · rcases Memory.mem_placeByte.1 hc with rfl | hc
    · exact ha
    · exact h c (Memory.mem_dropByte.1 hc).1

/-- Writing a word inside the capacity lists nothing above it. -/
theorem Memory.within_writeWord (h : m.within n = true) (ha : a + 4 ≤ n) (v : Word) :
    (m.writeWord a v).within n = true :=
  Memory.within_writeByte (Memory.within_writeByte (Memory.within_writeByte
    (Memory.within_writeByte h (by omega) _) (by omega) _) (by omega) _) (by omega) _

/-- An array below its capacity reads back as the bytes it was made of. -/
theorem Memory.readByte_ofBytes (n : Nat) (f : Nat → Byte) (a : Nat) :
    (Memory.ofBytes n f).readByte a = if a < n then f a else unlistedByte := by
  induction n with
  | zero => simp [Memory.ofBytes]
  | succ n ih =>
    have app : ∀ (l : Memory) (c : Host.Cell), (∀ d ∈ l, d.1 ≠ c.1) →
        Memory.readByte (l ++ [c]) a = if a = c.1 then c.2 else l.readByte a := by
      intro l c
      induction l with
      | nil => intro _; simp [Memory.readByte_cons, eq_comm]
      | cons d l ihl =>
        intro h
        have hd : d.1 ≠ c.1 := h d (by simp)
        rw [List.cons_append, Memory.readByte_cons, ihl fun e he => h e (by simp [he]),
          Memory.readByte_cons]
        split
        · rw [if_neg (by omega)]
        · rfl
    have hlt : ∀ d ∈ Memory.ofBytes n f, d.1 ≠ n := by
      intro d hd
      simp only [Memory.ofBytes, List.mem_filterMap, List.mem_range] at hd
      obtain ⟨x, hx, hd⟩ := hd
      split at hd <;> simp_all
      rw [← hd]; simp only; omega
    have step : Memory.ofBytes (n + 1) f =
        if f n = unlistedByte then Memory.ofBytes n f else Memory.ofBytes n f ++ [(n, f n)] := by
      simp only [Memory.ofBytes, List.range_succ, List.filterMap_append]
      split <;> simp [*]
    rw [step]
    split
    · next hz =>
      rw [ih]
      by_cases h : a = n
      · subst h; simp [hz]
      · simp only [show (a < n + 1 ↔ a < n) by omega]
    · rw [app _ _ hlt, ih]
      by_cases h : a = n
      · simp [h]
      · simp only [if_neg h, show (a < n + 1 ↔ a < n) by omega]

theorem Memory.mem_ofBytes {f : Nat → Byte} {c : Host.Cell} (h : c ∈ Memory.ofBytes n f) :
    c.1 < n ∧ c.2 ≠ unlistedByte := by
  simp only [Memory.ofBytes, List.mem_filterMap, List.mem_range] at h
  obtain ⟨x, hx, h⟩ := h
  split at h
  · simp at h
  · next hf => obtain rfl := Option.some.inj h; exact ⟨hx, hf⟩

/-- An array's list is inside its capacity. -/
theorem Memory.within_ofBytes (n : Nat) (f : Nat → Byte) :
    (Memory.ofBytes n f).within n = true :=
  Memory.within_iff.2 fun _ hc => (Memory.mem_ofBytes hc).1

/-- An array's list is canonical. -/
theorem Memory.wf_ofBytes (n : Nat) (f : Nat → Byte) : (Memory.ofBytes n f).wf = true := by
  have snoc : ∀ (l : Memory) (c : Host.Cell), l.wf = true → (∀ d ∈ l, d.1 < c.1) →
      c.2 ≠ unlistedByte → Memory.wf (l ++ [c]) = true := by
    intro l c
    induction l with
    | nil => intro _ _ hc; simp [Memory.wf, hc]
    | cons d l ih =>
      intro hl hlt hc
      obtain ⟨hv, hd, hl⟩ := (Memory.wf_cons d l).1 hl
      rw [List.cons_append, Memory.wf_cons]
      refine ⟨hv, fun e he => ?_, ih hl (fun e he => hlt e (by simp [he])) hc⟩
      rcases List.mem_append.1 he with he | he
      · exact hd e he
      · rw [List.mem_singleton.1 he]; exact hlt d (by simp)
  induction n with
  | zero => rfl
  | succ n ih =>
    have step : Memory.ofBytes (n + 1) f =
        if f n = unlistedByte then Memory.ofBytes n f else Memory.ofBytes n f ++ [(n, f n)] := by
      simp only [Memory.ofBytes, List.range_succ, List.filterMap_append]
      split <;> simp [*]
    rw [step]
    split
    · exact ih
    · next hf => exact snoc _ _ ih (fun d hd => (Memory.mem_ofBytes hd).1) hf

end Sys2Proof.Machine
end

