-- ==== Sys2Proof/Laws/Ops.lean ====
section
/-! SUPPORT. One lemma for each shared operation that says once everything it can do, cited
instead of unfolding the operation. -/

namespace Sys2Proof.Machine

variable {s t : State} {why : Stop}

/-- The two outcomes of a range check (R46). -/
theorem inRange_iff (size : Nat) (a : Int) : InRange size a ↔ 0 ≤ a ∧ a + 4 ≤ size := Iff.rfl

/-- The alignment check (R47, R48). -/
theorem aligned_iff (a : Int) : Aligned a ↔ a % 4 = 0 := Iff.rfl

/-- The fetch checks pass exactly in a state that can fetch (R91). -/
theorem fetchStop_eq_none : fetchStop s = none ↔ s.Fetchable := by
  by_cases h : InRange s.memSize s.pc
  · by_cases h' : Aligned s.pc
    · exact ⟨fun _ => ⟨h, h'⟩, fun _ => by rw [fetchStop, if_neg (not_not.2 h), if_neg (not_not.2 h')]⟩
    · rw [fetchStop, if_neg (not_not.2 h), if_pos h']
      exact ⟨nofun, fun k => absurd k.2 h'⟩
  · rw [fetchStop, if_pos h]
    exact ⟨nofun, fun k => absurd k.1 h⟩

/-- Which fetch check fails, and with which record (R91, R152, R153). -/
theorem fetchStop_eq_some :
    fetchStop s = some why ↔
      (¬ InRange s.memSize s.pc ∧ why = .fetchOutOfRange s.pc) ∨
        (InRange s.memSize s.pc ∧ ¬ Aligned s.pc ∧ why = .fetchMisaligned s.pc) := by
  by_cases h : InRange s.memSize s.pc
  · by_cases h' : Aligned s.pc
    · rw [fetchStop, if_neg (not_not.2 h), if_neg (not_not.2 h')]
      exact ⟨nofun, fun k => k.elim (fun k => absurd h k.1) (fun k => absurd h' k.2.1)⟩
    · rw [fetchStop, if_neg (not_not.2 h), if_pos h']
      exact ⟨fun k => .inr ⟨h, h', (Option.some.inj k).symm⟩,
        fun k => k.elim (fun k => absurd h k.1) (fun k => congrArg some k.2.2.symm)⟩
  · rw [fetchStop, if_pos h]
    exact ⟨fun k => .inl ⟨h, (Option.some.inj k).symm⟩,
      fun k => k.elim (fun k => congrArg some k.2.symm) (fun k => absurd k.1 h)⟩

/-- The checks on the cursor pass exactly in a state that can use its cell (R94). -/
theorem cellStop_eq_none : cellStop s = none ↔ s.CellUsable := by
  by_cases h : InRange s.memSize s.dp
  · by_cases h' : Aligned s.dp
    · exact ⟨fun _ => ⟨h, h'⟩, fun _ => by rw [cellStop, if_neg (not_not.2 h), if_neg (not_not.2 h')]⟩
    · rw [cellStop, if_neg (not_not.2 h), if_pos h']
      exact ⟨nofun, fun k => absurd k.2 h'⟩
  · rw [cellStop, if_pos h]
    exact ⟨nofun, fun k => absurd k.1 h⟩

/-- Which check on the cursor fails, and with which record (R94, R155, R156). -/
theorem cellStop_eq_some :
    cellStop s = some why ↔
      (¬ InRange s.memSize s.dp ∧ why = .dpOutOfRange s.dp) ∨
        (InRange s.memSize s.dp ∧ ¬ Aligned s.dp ∧ why = .dpMisaligned s.dp) := by
  by_cases h : InRange s.memSize s.dp
  · by_cases h' : Aligned s.dp
    · rw [cellStop, if_neg (not_not.2 h), if_neg (not_not.2 h')]
      exact ⟨nofun, fun k => k.elim (fun k => absurd h k.1) (fun k => absurd h' k.2.1)⟩
    · rw [cellStop, if_neg (not_not.2 h), if_pos h']
      exact ⟨fun k => .inr ⟨h, h', (Option.some.inj k).symm⟩,
        fun k => k.elim (fun k => absurd h k.1) (fun k => congrArg some k.2.2.symm)⟩
  · rw [cellStop, if_pos h]
    exact ⟨fun k => .inl ⟨h, (Option.some.inj k).symm⟩,
      fun k => k.elim (fun k => congrArg some k.2.symm) (fun k => absurd k.1 h)⟩

/-- With a usable cell, the cell's value is used. -/
theorem withCell_of_usable (h : s.CellUsable) (use : Word → State) :
    withCell s use = .next (use (cellValue s)) := by
  rw [withCell, cellStop_eq_none.2 h]

/-- With the cursor out of range, the stop DP_OUT_OF_RANGE is taken. -/
theorem withCell_of_not_inRange (h : ¬ InRange s.memSize s.dp) (use : Word → State) :
    withCell s use = .next (takeStop (.dpOutOfRange s.dp) s) := by
  rw [withCell, cellStop_eq_some.2 (.inl ⟨h, rfl⟩)]

/-- With the cursor in range and misaligned, the stop DP_MISALIGNED is taken. -/
theorem withCell_of_not_aligned (h : InRange s.memSize s.dp) (h' : ¬ Aligned s.dp)
    (use : Word → State) : withCell s use = .next (takeStop (.dpMisaligned s.dp) s) := by
  rw [withCell, cellStop_eq_some.2 (.inr ⟨h, h', rfl⟩)]

/-- Everything a cell access can do: it uses the cell, or takes one of two stops. -/
theorem withCell_cases {use : Word → State} (h : withCell s use = .next t) :
    (s.CellUsable ∧ t = use (cellValue s)) ∨
      (¬ InRange s.memSize s.dp ∧ t = takeStop (.dpOutOfRange s.dp) s) ∨
        (InRange s.memSize s.dp ∧ ¬ Aligned s.dp ∧ t = takeStop (.dpMisaligned s.dp) s) := by
  unfold withCell at h
  cases hc : cellStop s with
  | none =>
    rw [hc] at h
    exact .inl ⟨cellStop_eq_none.1 hc, by simpa using h.symm⟩
  | some why =>
    rw [hc] at h
    have ht : t = takeStop why s := by simpa using h.symm
    rcases cellStop_eq_some.1 hc with ⟨h1, rfl⟩ | ⟨h1, h2, rfl⟩
    · exact .inr (.inl ⟨h1, ht⟩)
    · exact .inr (.inr ⟨h1, h2, ht⟩)

/-- Everything `load` can do (R181, R183, R6). -/
theorem load_cases (n : Nat) (image : List Byte) (memInit : Nat → Byte) :
    (¬ (0 < n ∧ n % 4 = 0) ∧ load n image memInit = .refused (.illegalCapacity n)) ∨
      ((0 < n ∧ n % 4 = 0) ∧ n < image.length ∧
        load n image memInit = .refused (.imageTooLarge image.length n)) ∨
      ((0 < n ∧ n % 4 = 0) ∧ image.length ≤ n ∧
        ∃ t, load n image memInit = .next t ∧ t.memSize = n ∧ t.pc = 0 ∧ t.dp = 0 ∧
          t.status = .running ∧
          t.mem = Memory.ofBytes n (fun a =>
            match image[a]? with | some b => b | none => memInit (a - image.length))) := by
  unfold load
  by_cases hn : 0 < n ∧ n % 4 = 0
  · rw [if_neg (not_not.2 hn)]
    by_cases hi : n < image.length
    · exact .inr (.inl ⟨hn, hi, by rw [if_pos hi]⟩)
    · exact .inr (.inr ⟨hn, by omega, _, by rw [if_neg hi], rfl, rfl, rfl, rfl, rfl⟩)
  · exact .inl ⟨hn, by rw [if_pos hn]⟩

/-- Everything one step can do (R90 to R92): a stopped machine stays as it is; a failed
fetch check takes its stop; otherwise the decoded instruction runs on the advanced state. -/
theorem step_cases (s : State) :
    (¬ s.Running ∧ step s = .next s) ∨
      (s.Running ∧ ¬ InRange s.memSize s.pc ∧
        step s = .next (takeStop (.fetchOutOfRange s.pc) s)) ∨
      (s.Running ∧ InRange s.memSize s.pc ∧ ¬ Aligned s.pc ∧
        step s = .next (takeStop (.fetchMisaligned s.pc) s)) ∨
      (s.Running ∧ s.Fetchable ∧ step s = exec (decode (fetchWord s)) (advance s)) := by
  unfold step
  cases hs : s.status with
  | stopped r => exact .inl ⟨by simp [State.Running, hs], rfl⟩
  | running =>
    cases hf : fetchStop s with
    | none => exact .inr (.inr (.inr ⟨hs, fetchStop_eq_none.1 hf, rfl⟩))
    | some why =>
      rcases fetchStop_eq_some.1 hf with ⟨h1, rfl⟩ | ⟨h1, h2, rfl⟩
      · exact .inr (.inl ⟨hs, h1, rfl⟩)
      · exact .inr (.inr (.inl ⟨hs, h1, h2, rfl⟩))

/-- What a word with each opcode decodes to (R93). -/
theorem decode_cases (w : Word) :
    (opcodeField w = 0 ∧ decode w = .right (sext30 (immField w))) ∨
      (opcodeField w = 1 ∧ decode w = .add (sext30 (immField w))) ∨
      (opcodeField w = 2 ∧ decode w = .bnz (sext30 (immField w))) ∨
      (opcodeField w = 3 ∧ decode w = .reserved3 (sext30 (immField w))) := by
  have hw : w.toNat < 4294967296 := w.isLt
  have h : opcodeField w < 4 := by unfold opcodeField; omega
  unfold decode
  generalize opcodeField w = n at h ⊢
  match n with
  | 0 => exact .inl ⟨rfl, rfl⟩
  | 1 => exact .inr (.inl ⟨rfl, rfl⟩)
  | 2 => exact .inr (.inr (.inl ⟨rfl, rfl⟩))
  | 3 => exact .inr (.inr (.inr ⟨rfl, rfl⟩))
  | n + 4 => omega

/-- The opcode of a decoded instruction is the word's opcode field. -/
theorem opcode_decode (w : Word) : (decode w).opcode = opcodeField w := by
  rcases decode_cases w with ⟨h, e⟩ | ⟨h, e⟩ | ⟨h, e⟩ | ⟨h, e⟩ <;> rw [e, h] <;> rfl

/-- The immediate of a decoded instruction is the sign-extended field. -/
theorem imm_decode (w : Word) : (decode w).imm = sext30 (immField w) := by
  rcases decode_cases w with ⟨_, e⟩ | ⟨_, e⟩ | ⟨_, e⟩ | ⟨_, e⟩ <;> rw [e] <;> rfl

@[simp] theorem exec_right (imm : Int) (s : State) :
    exec (.right imm) s = .next (s.setDp (s.dp + imm)) := rfl

theorem exec_add (imm : Int) (s : State) :
    exec (.add imm) s = withCell s (fun v => storeCell s (wrap32 (v.toNat + imm))) := rfl

theorem exec_bnz (imm : Int) (s : State) :
    exec (.bnz imm) s =
      withCell s (fun v => if Nonzero v then s.setPc (s.pc + imm) else s) := rfl

@[simp] theorem exec_reserved3 (imm : Int) (s : State) :
    exec (.reserved3 imm) s =
      .next (takeStop (.illegalInstruction (s.pc - 4) (encode (.reserved3 imm))) s) := rfl

/-- Everything executing an instruction can do (R94), with `s` the advanced state. -/
theorem exec_cases {i : Instr} (h : exec i s = .next t) :
    (∃ imm, i = .right imm ∧ t = s.setDp (s.dp + imm)) ∨
      (∃ imm, i = .add imm ∧ s.CellUsable ∧
        t = storeCell s (wrap32 ((cellValue s).toNat + imm))) ∨
      (∃ imm, i = .bnz imm ∧ s.CellUsable ∧
        t = if Nonzero (cellValue s) then s.setPc (s.pc + imm) else s) ∨
      ((i.opcode = 1 ∨ i.opcode = 2) ∧ ¬ InRange s.memSize s.dp ∧
        t = takeStop (.dpOutOfRange s.dp) s) ∨
      ((i.opcode = 1 ∨ i.opcode = 2) ∧ InRange s.memSize s.dp ∧ ¬ Aligned s.dp ∧
        t = takeStop (.dpMisaligned s.dp) s) ∨
      (∃ imm, i = .reserved3 imm ∧
        t = takeStop (.illegalInstruction (s.pc - 4) (encode (.reserved3 imm))) s) := by
  cases i with
  | right imm =>
    have ht : s.setDp (s.dp + imm) = t := by simpa [exec, execRight] using h
    exact .inl ⟨imm, rfl, ht.symm⟩
  | add imm =>
    rcases withCell_cases (s := s)
      (use := fun v => storeCell s (wrap32 (v.toNat + imm))) h with ⟨h1, ht⟩ | ⟨h1, ht⟩ | ⟨h1, h2, ht⟩
    · exact .inr (.inl ⟨imm, rfl, h1, ht⟩)
    · exact .inr (.inr (.inr (.inl ⟨.inl rfl, h1, ht⟩)))
    · exact .inr (.inr (.inr (.inr (.inl ⟨.inl rfl, h1, h2, ht⟩))))
  | bnz imm =>
    rcases withCell_cases (s := s)
      (use := fun v => if Nonzero v then s.setPc (s.pc + imm) else s) h with
      ⟨h1, ht⟩ | ⟨h1, ht⟩ | ⟨h1, h2, ht⟩
    · exact .inr (.inr (.inl ⟨imm, rfl, h1, ht⟩))
    · exact .inr (.inr (.inr (.inl ⟨.inr rfl, h1, ht⟩)))
    · exact .inr (.inr (.inr (.inr (.inl ⟨.inr rfl, h1, h2, ht⟩))))
  | reserved3 imm =>
    have ht : takeStop (.illegalInstruction (s.pc - 4) (encode (.reserved3 imm))) s = t := by
      simpa [exec, execReserved3] using h
    exact .inr (.inr (.inr (.inr (.inr ⟨imm, rfl, ht.symm⟩))))

end Sys2Proof.Machine
end

