-- ==== Sys2Proof/Laws/Words.lean ====
section
/-! SUPPORT. Facts about the fields of an instruction word and the encoder. -/

namespace Sys2Proof

/-- The opcode field of an encoded instruction. -/
theorem opcodeField_encode (i : Instr) : opcodeField (encode i) = i.opcode := by
  have h : i.opcode < 4 := by cases i <;> simp [Instr.opcode]
  have hf : (i.imm % 2 ^ 30).toNat < 2 ^ 30 := by omega
  simp only [opcodeField, encode, BitVec.toNat_ofNat]
  omega

/-- The immediate field of an encoded instruction. -/
theorem immField_encode (i : Instr) : immField (encode i) = (i.imm % 2 ^ 30).toNat := by
  have h : i.opcode < 4 := by cases i <;> simp [Instr.opcode]
  have hf : (i.imm % 2 ^ 30).toNat < 2 ^ 30 := by omega
  simp only [immField, encode, BitVec.toNat_ofNat]
  omega

/-- The two readings of a 30-bit field (R8). -/
theorem sext30_cases (f : Nat) :
    (f < 536870912 ∧ sext30 f = f) ∨ (536870912 ≤ f ∧ sext30 f = f - 1073741824) := by
  by_cases h : f < 2 ^ 29
  · exact .inl ⟨h, by rw [sext30, if_pos h]⟩
  · exact .inr ⟨by omega, by rw [sext30, if_neg h]; norm_num⟩

/-- The two readings of a word as a signed value (R8). -/
theorem signed32_cases (w : Word) :
    (w.toNat < 2147483648 ∧ Machine.signed32 w = w.toNat) ∨
      (2147483648 ≤ w.toNat ∧ Machine.signed32 w = w.toNat - 4294967296) := by
  by_cases h : w.toNat < 2 ^ 31
  · exact .inl ⟨h, by rw [Machine.signed32, if_pos h]⟩
  · exact .inr ⟨by omega, by rw [Machine.signed32, if_neg h]; norm_num⟩

/-- `wrap32` is the residue modulo `2^32` (R8). -/
theorem toNat_wrap32 (z : Int) : ((Machine.wrap32 z).toNat : Int) = z % 4294967296 := by
  simp only [Machine.wrap32, BitVec.toNat_ofInt]
  omega

/-- The mask of the opcode map selects the opcode field (R76). -/
theorem and_opcodeMask (w : Word) :
    w &&& 0xC0000000#32 = BitVec.ofNat 32 (opcodeField w * 2 ^ 30) := by
  have hmask : ∀ k (h : k < 32), (0xC0000000#32 : Word)[k] = decide (30 ≤ k) := by decide
  have hs : BitVec.ofNat 32 (opcodeField w * 2 ^ 30) = (w >>> 30) <<< 30 := by
    apply BitVec.eq_of_toNat_eq
    simp [opcodeField, Nat.shiftRight_eq_div_pow, Nat.shiftLeft_eq]
  rw [hs]
  ext k hk
  rw [BitVec.getElem_and, hmask k hk, BitVec.getElem_shiftLeft]
  by_cases h : k < 30
  · simp [h]
  · simp [h, show 30 ≤ k by omega, show 30 + (k - 30) = k by omega, BitVec.getLsbD_eq_getElem hk]

end Sys2Proof
end

