-- ==== Sys2Proof/Laws/PerInstr.lean ====
section
/-! SUPPORT. Statements made of every instruction, one lemma per constructor. -/

namespace Sys2Proof.Laws

/-- The encoded word lies in the instruction's own row of the opcode map (R76): the row that
bears its mnemonic. It holds of every immediate, representable or not. -/
def TableRow.Statement (i : Instr) : Prop :=
  ∃ row ∈ opcodeTable, row.mnemonic = i.mnemonic ∧ encode i &&& row.mask = row.pattern

/-- The opcode bits of an encoded instruction. -/
theorem TableRow.opcodeBits {i : Instr} {k : Nat} (h : i.opcode = k) :
    encode i &&& 0xC0000000#32 = BitVec.ofNat 32 (k * 2 ^ 30) := by
  rw [and_opcodeMask, opcodeField_encode, h]

theorem TableRow.right (imm : Int) : TableRow.Statement (.right imm) :=
  ⟨⟨"RIGHT", 0xC0000000#32, 0x00000000#32⟩, by simp [opcodeTable], rfl,
    (TableRow.opcodeBits (k := 0) rfl).trans (by decide)⟩

theorem TableRow.add (imm : Int) : TableRow.Statement (.add imm) :=
  ⟨⟨"ADD", 0xC0000000#32, 0x40000000#32⟩, by simp [opcodeTable], rfl,
    (TableRow.opcodeBits (k := 1) rfl).trans (by decide)⟩

theorem TableRow.bnz (imm : Int) : TableRow.Statement (.bnz imm) :=
  ⟨⟨"BNZ", 0xC0000000#32, 0x80000000#32⟩, by simp [opcodeTable], rfl,
    (TableRow.opcodeBits (k := 2) rfl).trans (by decide)⟩

theorem TableRow.reserved3 (imm : Int) : TableRow.Statement (.reserved3 imm) :=
  ⟨⟨"RESERVED3", 0xC0000000#32, 0xC0000000#32⟩, by simp [opcodeTable], rfl,
    (TableRow.opcodeBits (k := 3) rfl).trans (by decide)⟩

/-- No two rows of the opcode map overlap (R76): distinct rows ask for distinct opcode bits. -/
theorem opcodeTable_disjoint :
    opcodeTable.Pairwise (fun r r' => r.mask = r'.mask ∧ r.pattern ≠ r'.pattern) := by
  decide

end Sys2Proof.Laws
end

