-- ==== Sys2Proof/Machine/Pseudo.lean ====
section
/-! DEFINITION. The assembler's side of `spec/44_pseudo_instructions.md`: each
pseudo-instruction's expansion (R130: the spec's own reading of the primitives) for an
expansion placed at address `a`, with the displacement rule of R83. Software: no step
depends on this file. -/

namespace Sys2Proof.Machine

/-- The immediate of a BNZ at address `a` to the target `t`: `t - (a + 4)` (R83, R121). -/
def displacement (a t : Int) : Int := t - (a + Config.instrBytes)

/-- `unconditional_branch(t)` (R132). -/
def unconditionalBranch (a t : Int) : List Instr :=
  [.bnz (displacement a t), .add 1, .bnz (displacement (a + 8) t)]

/-- `branch_if_zero(t)` (R133); its fall-through label is the address after the expansion. -/
def branchIfZero (a t : Int) : List Instr :=
  [.bnz (displacement a (a + 20)), .add 1, .bnz (displacement (a + 8) t), .add 1,
    .bnz (displacement (a + 16) t)]

/-- `branch_label(t)` (R134); the label is at the second instruction. -/
def branchLabel : List Instr := [.add 1, .add (-1)]

/-- `zero_at_dp()` (R135); its loop label is at the third instruction. -/
def zeroAtDp (a : Int) : List Instr :=
  [.bnz (displacement a (a + 8)), .add 1, .add (-1), .bnz (displacement (a + 12) (a + 8))]

/-- `push(value)` (R136). -/
def push (a value : Int) : List Instr :=
  zeroAtDp a ++ [.add value, .right Config.cellBytes]

/-- `pop()` (R137). -/
def pop : List Instr := [.right (-Config.cellBytes)]

/-- `move(n)`, `n` cells to the right, negative to the left (R138). -/
def move (n : Int) : List Instr := [.right (Config.cellBytes * n)]

/-- The instructions of binary `+` (`delta = 1`) and `-` (`delta = -1`) after the two
pushes (R140). -/
def addOperands (a delta : Int) : List Instr :=
  [.right (-4), .bnz (displacement (a + 4) (a + 16)), .add 1,
    .bnz (displacement (a + 12) (a + 36)), .add (-1), .right (-4), .add delta, .right 4,
    .bnz (displacement (a + 32) (a + 16))]

/-- The skeleton of if/else around its two bodies, after the condition is pushed (R141):
the else label is inside the `branch_label`, the end label after the else body. -/
def ifElse (a : Int) (thenBody elseBody : List Instr) : List Instr :=
  let elseLabel := a + 40 + 4 * thenBody.length
  let endLabel := elseLabel + 4 + 4 * elseBody.length
  pop ++ branchIfZero (a + 4) elseLabel ++ thenBody ++
    unconditionalBranch (a + 24 + 4 * thenBody.length) endLabel ++ branchLabel ++ elseBody

end Sys2Proof.Machine
end

