-- ==== Sys2Proof/Tests/Slice0.lean ====
section
/-! SUPPORT. Tests. Expected values are those of `spec/95_test_vectors.md` (the part is named)
or a rule's own example; the witnesses show states that meet the hypotheses of the statements. -/

namespace Sys2Proof.Tests

open Sys2Proof.Machine

/-- A small running state: capacity, `pc`, `dp`, and words placed in memory. -/
def small (size : Nat) (pc dp : Int) (words : List (Int × Word)) : State :=
  words.foldl (fun s c => s.writeWord c.1 c.2)
    { memSize := size, mem := [], pc := pc, dp := dp, status := .running }

/-- The next state of an outcome. -/
def next? : Host.Outcome State Fault Refusal → Option State
  | .next s => some s
  | _ => none

/-- What a load refuses with. -/
def refusal? : Host.Outcome State Fault Refusal → Option Refusal
  | .refused r => some r
  | _ => none

/-! WellFormed smoke: each check refuses an ill-formed term (R73, R81). -/

theorem test_right_imm_too_large : ¬ (Instr.right 536870912).WellFormed := by decide
theorem test_add_imm_too_small : ¬ (Instr.add (-536870913)).WellFormed := by decide
theorem test_bnz_imm_too_large : ¬ (Instr.bnz 536870912).WellFormed := by decide
theorem test_reserved3_imm_too_small : ¬ (Instr.reserved3 (-536870913)).WellFormed := by decide
theorem test_assemble_refuses : assemble (.add 536870912) = none := by decide
theorem test_bounds_are_well_formed :
    (Instr.right (-536870912)).WellFormed ∧ (Instr.bnz 536870911).WellFormed := by decide

/-! Decoding words written out from the encoding (S1, 2.1, R76). -/

theorem test_decode_right : decode 0x3FFFFFFC#32 = .right (-4) := by decide
theorem test_decode_right_min : decode 0x20000000#32 = .right (-536870912) := by decide
theorem test_decode_right_not_14_bits : decode 0x00002000#32 = .right 8192 := by decide
theorem test_decode_add : decode 0x40000063#32 = .add 99 := by decide
theorem test_decode_add_minus_one : decode 0x7FFFFFFF#32 = .add (-1) := by decide
theorem test_decode_bnz : decode 0xBFFFFFF8#32 = .bnz (-8) := by decide
theorem test_decode_bnz_max : decode 0x9FFFFFFF#32 = .bnz 536870911 := by decide
theorem test_decode_reserved3 : decode 0xC0000001#32 = .reserved3 1 := by decide
theorem test_decode_rejects_short : decodeBytes [0x04#8, 0x00#8, 0x00#8] = .rejected .truncated := by
  decide
theorem test_decodeTableWord_reads_low_bits : decodeTableWord 32 0x80000004 = some (.bnz 4) := by
  decide

/-- R84: the image of `ADD 5; BNZ 4; ADD 99; ADD 1`. -/
theorem test_image : imageOf [.add 5, .bnz 4, .add 99, .add 1] =
    [0x05#8, 0x00#8, 0x00#8, 0x40#8, 0x04#8, 0x00#8, 0x00#8, 0x80#8,
     0x63#8, 0x00#8, 0x00#8, 0x40#8, 0x01#8, 0x00#8, 0x00#8, 0x40#8] := by decide

/-! Load (2.6). -/

/-- A ragged image is completed by the first bytes of `MEM_INIT`. -/
theorem test_load_ragged_image :
    (next? (load 8 [0x05#8, 0x00#8, 0x00#8]
      (fun k => [0x40#8, 0x00#8, 0x00#8, 0x00#8, 0xC0#8].getD k 0#8))).map
        (fun s => (fetchWord s, s.readWord 4)) = some (0x40000005#32, 0xC0000000#32) := by decide

theorem test_load_oversize :
    refusal? (load 16 (List.replicate 20 0x00#8) (fun _ => 0#8)) = some (.imageTooLarge 20 16) := by
  decide

theorem test_load_bad_capacity :
    refusal? (load 6 [] (fun _ => 0#8)) = some (.illegalCapacity 6) := by decide

/-! RIGHT (2.2). -/

theorem test_right_left_of_zero :
    (next? (exec (.right (-536870912)) (small 64 4 (-536870912) []))).map (·.dp) =
      some (-1073741824) := by decide

theorem test_right_step_past_the_end :
    (next? (step (small 64 0 60 [(0, 0x00000004#32)]))).map (fun s => (s.dp, s.pc, s.status)) =
      some (64, 4, .running) := by decide

/-! ADD (2.3, R115). -/

theorem test_add_wraps_and_stores_little_endian :
    (next? (exec (.add 536870911) (small 64 4 32 [(32, 0x7FFFFFFF#32)]))).map (·.mem) =
      some [(32, 0xFE#8), (33, 0xFF#8), (34, 0xFF#8), (35, 0x9F#8)] := by decide

theorem test_add_to_zero_unlists_the_cell :
    (next? (exec (.add 1) (small 64 4 32 [(32, 0xFFFFFFFF#32)]))).map (·.mem) = some [] := by
  decide

/-- R115: `ADD 1` on `RIGHT -1` gives `ADD 0`, and `ADD -1` on `ADD 0` gives `RIGHT -1`. -/
theorem test_add_on_code_carries_and_borrows :
    (next? (exec (.add 1) (small 64 4 32 [(32, 0x3FFFFFFF#32)]))).map
        (fun s => decode (s.readWord 32)) = some (.add 0) ∧
      (next? (exec (.add (-1)) (small 64 4 32 [(32, 0x40000000#32)]))).map
        (fun s => decode (s.readWord 32)) = some (.right (-1)) := by decide

/-! BNZ (2.4), at address 8. -/

theorem test_bnz_negative_cell_is_taken :
    (next? (step (small 64 8 32 [(8, 0xBFFFFFF0#32), (32, 0x80000000#32)]))).map (·.pc) =
      some (-4) := by decide

theorem test_bnz_zero_cell_falls_through :
    (next? (step (small 64 8 32 [(8, 0x80000004#32)]))).map (·.pc) = some 12 := by decide

/-! Stops (2.5). -/

theorem test_reserved_word_at_zero :
    (next? (step (small 64 0 0 [(0, 0xFFFFFFFF#32)]))).map (fun s => (s.pc, s.status)) =
      some (4, .stopped (.illegalInstruction 0 0xFFFFFFFF#32)) := by decide

theorem test_range_check_comes_before_alignment :
    (next? (step (small 64 4 62 [(4, 0x40000001#32)]))).map (fun s => (s.pc, s.dp, s.status)) =
      some (8, 62, .stopped (.dpOutOfRange 62)) := by decide

theorem test_misaligned_cursor_stops_bnz :
    (next? (step (small 64 4 2 [(4, 0x80000000#32)]))).map (fun s => (s.pc, s.status)) =
      some (8, .stopped (.dpMisaligned 2)) := by decide

theorem test_last_cell_is_legal :
    (next? (step (small 64 4 60 [(4, 0x40000001#32)]))).map (fun s => (s.readWord 60, s.status)) =
      some (1#32, .running) := by decide

theorem test_misaligned_fetch :
    (next? (step (small 64 10 0 []))).map (fun s => (s.pc, s.status)) =
      some (10, .stopped (.fetchMisaligned 10)) := by decide

theorem test_fetch_at_capacity :
    (next? (step (small 16 16 0 []))).map (fun s => (s.pc, s.status)) =
      some (16, .stopped (.fetchOutOfRange 16)) := by decide

/-- The step after reset runs the placed word. -/
theorem test_withFetchWord_runs :
    (next? (step (State.reset.withFetchWord 32 0x00000020))).map (fun s => (s.pc, s.dp)) =
      some (4, 32) := by decide

/-! Pseudo-instructions: the words of S3, P2, P3 and P5. -/

theorem test_unconditionalBranch_words :
    (unconditionalBranch 4 20).map encode = [0x8000000C#32, 0x40000001#32, 0x80000004#32] := by
  decide

theorem test_zeroAtDp_words : (zeroAtDp 8).map encode =
    [0x80000004#32, 0x40000001#32, 0x7FFFFFFF#32, 0xBFFFFFF8#32] := by decide

theorem test_addOperands_words : (addOperands 52 1).map encode =
    [0x3FFFFFFC#32, 0x80000008#32, 0x40000001#32, 0x80000014#32, 0x7FFFFFFF#32, 0x3FFFFFFC#32,
     0x40000001#32, 0x00000004#32, 0xBFFFFFEC#32] := by decide

theorem test_ifElse_words :
    (ifElse 28 (move 1 ++ [.add 11] ++ pop) (move 1 ++ [.add 22] ++ pop)).map encode =
      [0x3FFFFFFC#32, 0x80000010#32, 0x40000001#32, 0x80000024#32, 0x40000001#32, 0x8000001C#32,
       0x00000004#32, 0x4000000B#32, 0x3FFFFFFC#32, 0x8000001C#32, 0x40000001#32, 0x80000014#32,
       0x40000001#32, 0x7FFFFFFF#32, 0x00000004#32, 0x40000016#32, 0x3FFFFFFC#32] := by decide

/-! Witnesses: states and operands that meet the hypotheses of the statements. -/

/-- The word at 8 is `ADD 1`, the cell at 32 holds 5. -/
def addState : State := small 64 8 32 [(8, 0x40000001#32), (32, 5#32)]

/-- The word at 8 is `BNZ 2`, the cell at 60, the last one, holds a negative value. -/
def bnzState : State := small 64 8 60 [(8, 0x80000002#32), (60, 0x80000000#32)]

/-- The cell at 64 is past the end. -/
def pastState (w : Word) : State := small 64 8 64 [(8, w)]

/-- The cursor is in range and misaligned. -/
def oddState (w : Word) : State := small 64 8 58 [(8, w)]

theorem witness_EncodeAndDecodeAreInverse :
    (-2 ^ 29 ≤ (Instr.add (-536870912)).imm ∧ (Instr.add (-536870912)).imm ≤ 2 ^ 29 - 1) ∧
    (2 ^ 29 - 1 < (Instr.right 536870912).imm ∧ (Instr.bnz (-536870913)).imm < -2 ^ 29) := by decide

theorem witness_EncodedBytesDecodeInPlace : (Instr.bnz (-536870912)).WellFormed := by decide

theorem witness_CellValueReadAsInstruction :
    signed32 0#32 = 0 ∧ signed32 0x1FFFFFFF#32 = 2 ^ 29 - 1 ∧ signed32 0x20000000#32 = 2 ^ 29 ∧
    signed32 0x3FFFFFFF#32 = 2 ^ 30 - 1 ∧ signed32 0x40000000#32 = 2 ^ 30 ∧
    signed32 0x80000000#32 = -2 ^ 31 ∧ signed32 0xC0000000#32 = -2 ^ 30 ∧
    signed32 0xFFFFFFFF#32 = -1 := by decide

/-- The ends of the range, and both signs of the immediate. -/
theorem witness_AddOnAnInstructionWord :
    (immField 0x40000000#32 : Int) + 0 = 0 ∧ (immField 0x7FFFFFFE#32 : Int) + 1 = 2 ^ 30 - 1 ∧
    0 ≤ (decode 0x40000000#32).imm ∧ (decode 0x7FFFFFFE#32).imm + 1 < 0 := by decide

/-- A carry out of the field, a borrow, and neither. -/
theorem witness_AddCarriesIntoTheOpcode :
    (small 64 4 32 [(32, 0x3FFFFFFF#32)]).CellUsable ∧
      2 ^ 30 ≤ (immField ((small 64 4 32 [(32, 0x3FFFFFFF#32)]).readWord 32) : Int) + 1 ∧
    (small 64 4 32 [(32, 0x40000000#32)]).CellUsable ∧
      (immField ((small 64 4 32 [(32, 0x40000000#32)]).readWord 32) : Int) + -1 < 0 ∧
      0 ≤ (immField ((small 64 4 32 [(32, 0x40000000#32)]).readWord 32) : Int) + 0 := by decide

theorem witness_LoadGivesTheResetState :
    0 < 4 ∧ 4 % 4 = 0 ∧ [0x05#8, 0x00#8, 0x00#8, 0x40#8].length ≤ 4 := by decide

theorem witness_OversizeImageIsRefused :
    0 < 4 ∧ 4 % 4 = 0 ∧ 4 < (List.replicate 5 0x00#8).length ∧
      (List.replicate 4 0x00#8).length = 4 := by decide

/-- The cells below and above, and the one at the edge of each clause. -/
theorem witness_WordReadsBackAsWritten : 0 + 4 ≤ 4 ∧ 4 + 4 ≤ 8 := by decide

theorem witness_CanonicalMemoryIsUnique :
    Memory.wf [(0, 1#8), (4, 2#8)] = true ∧
      ∀ a, Memory.readByte [(0, 1#8), (4, 2#8)] a = Memory.readByte [(0, 1#8), (4, 2#8)] a :=
  ⟨by decide, fun _ => rfl⟩

theorem witness_StepKeepsStatesWellFormed :
    addState.Wf ∧ (next? (step addState)).isSome = true := by decide

theorem witness_RightStep :
    (small 64 8 0 [(8, 0x20000000#32)]).Running ∧ (small 64 8 0 [(8, 0x20000000#32)]).Fetchable ∧
      ((fetchWord (small 64 8 0 [(8, 0x20000000#32)])).toNat : Int) = (-536870912) % 2 ^ 30 := by
  decide

theorem witness_AddCompletes : InRange addState.memSize addState.dp ∧ Aligned addState.dp := by
  decide

theorem witness_AddStep :
    addState.Running ∧ addState.Fetchable ∧
      ((fetchWord addState).toNat : Int) = 2 ^ 30 + 1 % 2 ^ 30 ∧ addState.CellUsable := by decide

theorem witness_AddStep_out_of_range :
    (pastState 0x40000001#32).Running ∧ (pastState 0x40000001#32).Fetchable ∧
      ((fetchWord (pastState 0x40000001#32)).toNat : Int) = 2 ^ 30 + 1 % 2 ^ 30 ∧
      ¬ InRange (pastState 0x40000001#32).memSize (pastState 0x40000001#32).dp := by decide

theorem witness_AddStep_misaligned :
    (oddState 0x40000001#32).Running ∧ (oddState 0x40000001#32).Fetchable ∧
      ((fetchWord (oddState 0x40000001#32)).toNat : Int) = 2 ^ 30 + 1 % 2 ^ 30 ∧
      InRange (oddState 0x40000001#32).memSize (oddState 0x40000001#32).dp ∧
      ¬ Aligned (oddState 0x40000001#32).dp := by decide

theorem witness_AddWrapsAround :
    InRange 64 (small 64 8 60 [(60, 0x7FFFFFFF#32)]).dp ∧
      Aligned (small 64 8 60 [(60, 0x7FFFFFFF#32)]).dp := by decide

theorem witness_StoreIsSeenByTheNextFetch :
    (small 64 4 8 [(4, 0x40000002#32), (8, 0x40000001#32)]).Running ∧
      (small 64 4 8 [(4, 0x40000002#32), (8, 0x40000001#32)]).Fetchable ∧
      decode (fetchWord (small 64 4 8 [(4, 0x40000002#32), (8, 0x40000001#32)])) = .add 2 ∧
      InRange 64 8 := by decide

theorem witness_BnzCompletes : InRange bnzState.memSize bnzState.dp ∧ Aligned bnzState.dp := by
  decide

theorem witness_BnzStep :
    bnzState.Running ∧ bnzState.Fetchable ∧
      ((fetchWord bnzState).toNat : Int) = 2 ^ 31 + 2 % 2 ^ 30 ∧ bnzState.CellUsable ∧
      bnzState.readWord bnzState.dp ≠ 0#32 := by decide

theorem witness_BnzStep_zero_cell :
    (small 64 8 60 [(8, 0x80000002#32)]).Running ∧ (small 64 8 60 [(8, 0x80000002#32)]).Fetchable ∧
      ((fetchWord (small 64 8 60 [(8, 0x80000002#32)])).toNat : Int) = 2 ^ 31 + 2 % 2 ^ 30 ∧
      (small 64 8 60 [(8, 0x80000002#32)]).CellUsable ∧
      (small 64 8 60 [(8, 0x80000002#32)]).readWord 60 = 0#32 := by decide

theorem witness_BnzStep_out_of_range :
    (pastState 0x80000002#32).Running ∧ (pastState 0x80000002#32).Fetchable ∧
      ((fetchWord (pastState 0x80000002#32)).toNat : Int) = 2 ^ 31 + 2 % 2 ^ 30 ∧
      ¬ InRange (pastState 0x80000002#32).memSize (pastState 0x80000002#32).dp := by decide

theorem witness_BnzStep_misaligned :
    (oddState 0x80000002#32).Running ∧ (oddState 0x80000002#32).Fetchable ∧
      ((fetchWord (oddState 0x80000002#32)).toNat : Int) = 2 ^ 31 + 2 % 2 ^ 30 ∧
      InRange (oddState 0x80000002#32).memSize (oddState 0x80000002#32).dp ∧
      ¬ Aligned (oddState 0x80000002#32).dp := by decide

/-- The target 14 is in range and misaligned. -/
theorem witness_BadTargetStopsAtTheNextFetch_misaligned :
    bnzState.Running ∧ bnzState.Fetchable ∧ decode (fetchWord bnzState) = .bnz 2 ∧
      bnzState.CellUsable ∧ bnzState.readWord bnzState.dp ≠ 0#32 ∧
      InRange bnzState.memSize (bnzState.pc + 4 + 2) ∧ ¬ Aligned (bnzState.pc + 4 + 2) := by decide

/-- The target 64 is the capacity. -/
theorem witness_BadTargetStopsAtTheNextFetch_out_of_range :
    (small 64 0 0 [(0, 0x8000003C#32)]).Running ∧ (small 64 0 0 [(0, 0x8000003C#32)]).Fetchable ∧
      decode (fetchWord (small 64 0 0 [(0, 0x8000003C#32)])) = .bnz 60 ∧
      (small 64 0 0 [(0, 0x8000003C#32)]).CellUsable ∧
      (small 64 0 0 [(0, 0x8000003C#32)]).readWord 0 ≠ 0#32 ∧ ¬ InRange 64 (0 + 4 + 60) := by decide

theorem witness_BnzOnItsOwnWordIsTaken :
    (small 64 8 8 [(8, 0x80000004#32)]).Running ∧ (small 64 8 8 [(8, 0x80000004#32)]).Fetchable ∧
      decode (fetchWord (small 64 8 8 [(8, 0x80000004#32)])) = .bnz 4 ∧
      (small 64 8 8 [(8, 0x80000004#32)]).dp = (small 64 8 8 [(8, 0x80000004#32)]).pc := by decide

theorem witness_BranchToItselfNeverEnds :
    (small 64 0 0 [(0, 0xBFFFFFFC#32)]).Running ∧ (small 64 0 0 [(0, 0xBFFFFFFC#32)]).Fetchable ∧
      fetchWord (small 64 0 0 [(0, 0xBFFFFFFC#32)]) = 0xBFFFFFFC#32 ∧
      (small 64 0 0 [(0, 0xBFFFFFFC#32)]).CellUsable ∧
      (small 64 0 0 [(0, 0xBFFFFFFC#32)]).readWord 0 ≠ 0#32 := by decide

theorem witness_ReservedWordStopsTheMachine :
    (small 64 60 0 [(60, 0xC0000000#32)]).Running ∧ (small 64 60 0 [(60, 0xC0000000#32)]).Fetchable ∧
      0xC0000000 ≤ (fetchWord (small 64 60 0 [(60, 0xC0000000#32)])).toNat := by decide

/-- One value for each side of each clause: 64 and -4 out of range, 62 out of range though
misaligned, 58 misaligned. -/
theorem witness_FetchChecks :
    (small 64 64 0 []).Running ∧ ¬ InRange 64 64 ∧ ¬ InRange 64 (-4) ∧ ¬ InRange 64 62 ∧
      InRange 64 58 ∧ ¬ Aligned 58 := by decide

theorem witness_CursorChecks :
    ¬ InRange (pastState 0#32).memSize (pastState 0#32).dp ∧
      InRange (oddState 0#32).memSize (oddState 0#32).dp ∧ ¬ Aligned (oddState 0#32).dp ∧
      (next? (exec (.right 1) addState)).isSome = true := by decide

/-- Each of the five causes is taken by some step of a running state. -/
theorem witness_StopCausesAreExact :
    [small 64 64 0 [], small 64 10 0 [], small 64 60 0 [(60, 0xC0000000#32)],
        pastState 0x40000001#32, oddState 0x80000002#32].map
      (fun s => (s.status.code, (next? (step s)).map (·.status.code))) =
    [(0, some 1), (0, some 2), (0, some 3), (0, some 4), (0, some 5)] := by decide

theorem witness_StopsArePrecise :
    (pastState 0x40000001#32).Running ∧
      (next? (step (pastState 0x40000001#32))).map (fun t => decide t.Running) = some false := by
  decide

theorem witness_StoppedMachineKeepsItsState :
    (takeStop (.dpOutOfRange 64) (pastState 0#32)).status = .stopped (.dpOutOfRange 64) := rfl

theorem witness_StepKeepsTheStopRecordTrue :
    (pastState 0x40000001#32).StopRecordTrue ∧
      (next? (step (pastState 0x40000001#32))).isSome = true := ⟨trivial, by decide⟩

theorem witness_StepRunsTheDecodedInstruction :
    addState.Running ∧ addState.Fetchable ∧
      decodeBytes [addState.mem.readByte 8, addState.mem.readByte 9, addState.mem.readByte 10,
        addState.mem.readByte 11] = .instr (.add 1) [] := by decide

theorem witness_PlacedWordRunsNext : State.reset.Running ∧ State.reset.Fetchable := by decide

theorem witness_ExecFrame :
    (next? (exec (.add 1) addState)).isSome = true ∧ addState.CellUsable ∧
      ¬ (pastState 0#32).CellUsable ∧ (next? (exec (.add 1) (pastState 0#32))).isSome = true := by
  decide

theorem witness_OnlyRightMovesTheCursor :
    (next? (step (small 64 0 0 [(0, 0x00000020#32)]))).map (·.dp) = some 32 := by decide

theorem witness_OnlyAddWritesMemory :
    addState.mem.readByte 32 = 5#8 ∧
      (next? (step addState)).map (·.mem.readByte 32) = some 6#8 := by decide

/-- The three cases: an advance, a taken branch, a failed fetch. -/
theorem witness_ProgramCounterMovesAsStated :
    [addState, bnzState, small 64 64 0 []].map
      (fun s => (decide s.Running, (next? (step s)).map (·.pc))) =
    [(true, some 12), (true, some 14), (true, some 64)] := by decide

theorem witness_RunKeepsTheCapacity : RunsTo 0 addState addState := rfl

theorem witness_AlignedOperandsKeepAlignment :
    Aligned (small 64 0 0 [(0, 0x00000020#32)]).pc ∧ Aligned (small 64 0 0 [(0, 0x00000020#32)]).dp ∧
      (decode (fetchWord (small 64 0 0 [(0, 0x00000020#32)]))).imm % 4 = 0 ∧
      (next? (step (small 64 0 0 [(0, 0x00000020#32)]))).isSome = true := by decide

/-- Two states that differ in a byte outside the word and the cell. -/
theorem witness_StepReadsOnlyTheWordAndTheCell :
    let s := small 64 8 32 [(8, 0x40000001#32), (32, 5#32), (40, 7#32)]
    addState ≠ s ∧ addState.memSize = s.memSize ∧ addState.pc = s.pc ∧ addState.dp = s.dp ∧
      addState.status = s.status ∧ fetchWord addState = fetchWord s ∧
      addState.readWord addState.dp = s.readWord s.dp := by decide

/-- A step that reads and writes memory. -/
theorem witness_ByteOrderIsUnobservable :
    (next? (step addState)).map (·.readWord 32) = some 6#32 := by decide

theorem witness_ZeroMemoryRunsOffTheEnd :
    (small 16 8 5 []).Running ∧ 0 ≤ (small 16 8 5 []).pc ∧
      (small 16 8 5 []).pc + 4 * (2 : Nat) = (small 16 8 5 []).memSize ∧ 16 % 4 = 0 ∧
      ∀ a : Nat, (small 16 8 5 []).mem.readByte a = 0#8 :=
  ⟨rfl, by decide, by decide, by decide, fun _ => rfl⟩

end Sys2Proof.Tests
end

