-- ==== Sys2Proof/Proofs/Memory.lean ====
section
/-! The statements about `spec/20_memory.md`. First the values: what a word made of four bytes
is worth and what each byte of a word is worth. Then the two word accesses of memory in the same
terms, from which the statements are put together. -/

namespace Sys2Proof

/-- The little-endian sum of R43 does not wrap: four bytes fill a word exactly. -/
@[simp] theorem toNat_wordOfBytes (b0 b1 b2 b3 : Byte) :
    (wordOfBytes b0 b1 b2 b3).toNat =
      b0.toNat + 256 * b1.toNat + 65536 * b2.toNat + 16777216 * b3.toNat := by
  rw [wordOfBytes, BitVec.toNat_ofNat]
  exact Nat.mod_eq_of_lt (by omega)

/-- Byte `k` of a word is its digit `k` in base 256 (R44). -/
@[simp] theorem toNat_byteOfWord (w : Word) (k : Nat) :
    (byteOfWord w k).toNat = w.toNat / 256 ^ k % 256 := by
  rw [byteOfWord, BitVec.toNat_ofNat]

end Sys2Proof

namespace Sys2Proof.Machine

/-- The value of `MemRead(a, 4)` (R43). -/
theorem Memory.toNat_readWord (m : Memory) (a : Nat) :
    (m.readWord a).toNat = (m.readByte a).toNat + 256 * (m.readByte (a + 1)).toNat +
      65536 * (m.readByte (a + 2)).toNat + 16777216 * (m.readByte (a + 3)).toNat :=
  toNat_wordOfBytes ..

/-- The byte at offset `k` of a written word is byte `k` of its value (R44). -/
theorem Memory.readByte_writeWord_offset (m : Memory) (a : Nat) (v : Word) {k : Nat}
    (hk : k < 4) : (m.writeWord a v).readByte (a + k) = byteOfWord v k := by
  rw [readByte_writeWord, if_pos (by omega), Nat.add_sub_cancel_left]

/-- A written word changes no byte outside its four (R44). -/
theorem Memory.readByte_writeWord_outside (m : Memory) (a : Nat) (v : Word) {b : Nat}
    (hb : b < a ∨ a + 4 ≤ b) : (m.writeWord a v).readByte b = m.readByte b := by
  rw [readByte_writeWord, if_neg (by omega)]

/-- The byte at offset `k` of a written word, as the number that R44 gives. -/
theorem Memory.toNat_readByte_writeWord_offset (m : Memory) (a : Nat) (v : Word) {k : Nat}
    (hk : k < 4) : ((m.writeWord a v).readByte (a + k)).toNat = v.toNat / 256 ^ k % 256 := by
  rw [readByte_writeWord_offset m a v hk, toNat_byteOfWord]

/-- Settles O11: the read is the sum of R43, the four written bytes are the digits of the value
at the offsets 0 to 3, and every address outside them is in the frame. -/
theorem wordReadAndWrite : Obligations.WordReadAndWrite := by
  intro m a v
  have digit {k : Nat} (hk : k < 4) := m.toNat_readByte_writeWord_offset a v hk
  have first : ((m.writeWord a v).readByte a).toNat = v.toNat % 256 := by
    simpa using digit (k := 0) (by decide)
  exact ⟨m.toNat_readWord a, first, digit (k := 1) (by decide), digit (k := 2) (by decide),
    digit (k := 3) (by decide), fun _ => m.readByte_writeWord_outside a v⟩

end Sys2Proof.Machine
end

/-! The statement about the fetch checks of `spec/40_fetch_decode_execute.md`: the step of a
running state whose fetch is refused, and from it the step for each of the two checks. -/

namespace Sys2Proof.Machine

variable {s : State} {why : Stop}

/-- A running machine whose fetch checks fail takes their stop as its whole step: neither the
advance of R92 nor any instruction comes after it (R91). -/
theorem step_of_fetchStop (hrun : s.Running) (h : fetchStop s = some why) :
    step s = .next (takeStop why s) := by
  rw [step, hrun, h]

/-- With `pc` out of range, the stop FETCH_OUT_OF_RANGE is taken (R91, R152). -/
theorem step_of_not_inRange (hrun : s.Running) (h : ¬ InRange s.memSize s.pc) :
    step s = .next (takeStop (.fetchOutOfRange s.pc) s) :=
  step_of_fetchStop hrun (fetchStop_eq_some.2 (.inl ⟨h, rfl⟩))

/-- With `pc` in range and misaligned, the stop FETCH_MISALIGNED is taken (R91, R153). -/
theorem step_of_not_aligned (hrun : s.Running) (h : InRange s.memSize s.pc)
    (h' : ¬ Aligned s.pc) : step s = .next (takeStop (.fetchMisaligned s.pc) s) :=
  step_of_fetchStop hrun (fetchStop_eq_some.2 (.inr ⟨h, h', rfl⟩))

/-- Settles O28: one clause for each check; taking a stop is the replacement of the latch that
the statement writes out. -/
theorem fetchChecks : Obligations.FetchChecks := by
  intro s hrun
  constructor
  · intro hout
    exact step_of_not_inRange hrun hout
  · intro hlow hhigh hmis
    exact step_of_not_aligned hrun ⟨hlow, hhigh⟩ hmis

end Sys2Proof.Machine

/-! The statement about `spec/41_right.md`. First the decoder read backwards, for every opcode:
a word worth `op * 2^30 + (imm mod 2^30)` decodes to that instruction. Then the step of a running
state whose fetch is granted, and from the two the step that fetches RIGHT. -/

namespace Sys2Proof

variable {w : Word} {i : Instr} {imm : Int}

/-- A word decodes to the instruction whose opcode and immediate its two fields hold (R93). -/
theorem decode_eq_of_fields (hop : opcodeField w = i.opcode)
    (himm : sext30 (immField w) = i.imm) : decode w = i := by
  cases i <;> rw [decode, hop, himm] <;> rfl

/-- Sign extension undoes the reduction modulo `2^30` of a representable immediate (R73). -/
theorem sext30_toNat_emod (h : ImmInRange imm) : sext30 (imm % 2 ^ 30).toNat = imm := by
  have hmin : -536870912 ≤ imm := h.1
  have hmax : imm ≤ 536870911 := h.2
  rcases sext30_cases (imm % 2 ^ 30).toNat with ⟨hf, e⟩ | ⟨hf, e⟩ <;> omega

/-- The encoding sum of R75 determines what a word decodes to: the sum's two parts are the
word's two fields, so neither of them borrows from the other. -/
theorem decode_eq_of_toNat (hi : i.WellFormed)
    (hw : (w.toNat : Int) = i.opcode * 2 ^ 30 + i.imm % 2 ^ 30) : decode w = i := by
  have hop : opcodeField w = i.opcode := by
    unfold opcodeField
    omega
  have hfield : immField w = (i.imm % 2 ^ 30).toNat := by
    unfold immField
    omega
  exact decode_eq_of_fields hop (hfield ▸ sext30_toNat_emod hi)

end Sys2Proof

namespace Sys2Proof.Machine

variable {s : State} {i : Instr}

/-- A running machine whose fetch checks pass runs the decoded word on the state with `pc`
advanced (R92 to R94). -/
theorem step_of_fetchable (hrun : s.Running) (hf : s.Fetchable) :
    step s = exec (decode (fetchWord s)) (advance s) := by
  rw [step, hrun, fetchStop_eq_none.2 hf]

/-- The step that fetches the word of a well-formed instruction is that instruction, run on the
state with `pc` advanced (R75, R92 to R94). -/
theorem step_of_toNat_fetchWord (hrun : s.Running) (hf : s.Fetchable) (hi : i.WellFormed)
    (hw : ((fetchWord s).toNat : Int) = i.opcode * 2 ^ 30 + i.imm % 2 ^ 30) :
    step s = exec i (advance s) := by
  rw [step_of_fetchable hrun hf, decode_eq_of_toNat hi hw]

/-- Settles O16: the fetched word is the encoding sum of RIGHT, whose opcode is 0; running it
after the advance replaces `dp` by `dp + imm` and makes no check (R100, R101). -/
theorem rightStep : Obligations.RightStep := by
  intro s imm hrun hf hmin hmax hw
  have hword : ((fetchWord s).toNat : Int) =
      (Instr.right imm).opcode * 2 ^ 30 + (Instr.right imm).imm % 2 ^ 30 := by
    simpa [Instr.opcode, Instr.imm] using hw
  calc step s
      = exec (.right imm) (advance s) := step_of_toNat_fetchWord hrun hf ⟨hmin, hmax⟩ hword
    _ = .next ((advance s).setDp ((advance s).dp + imm)) := exec_right imm (advance s)
    _ = .next { s with pc := s.pc + 4, dp := s.dp + imm } := rfl

end Sys2Proof.Machine

/-! The statements about `spec/42_add.md`. First the word accesses: a stored word reads back.
Then the wrapped sum of R111 in its signed reading. From these ADD with a usable cell, and ADD
as a whole step for each outcome of the two checks on the cursor. -/

namespace Sys2Proof

/-- The four bytes of a word, put together again, are the word (R42 to R44). -/
@[simp] theorem wordOfBytes_byteOfWord (w : Word) :
    wordOfBytes (byteOfWord w 0) (byteOfWord w 1) (byteOfWord w 2) (byteOfWord w 3) = w := by
  apply BitVec.eq_of_toNat_eq
  simp only [toNat_wordOfBytes, toNat_byteOfWord]
  have hw : w.toNat < 4294967296 := w.isLt
  omega

end Sys2Proof

namespace Sys2Proof.Machine

variable {s : State}

/-- A written word reads back at its own address (R44). -/
theorem Memory.readWord_writeWord_same (m : Memory) (a : Nat) (v : Word) :
    (m.writeWord a v).readWord a = v := by
  have first := m.readByte_writeWord_offset a v (k := 0) (by decide)
  rw [Nat.add_zero] at first
  rw [readWord, first, m.readByte_writeWord_offset a v (by decide),
    m.readByte_writeWord_offset a v (by decide), m.readByte_writeWord_offset a v (by decide),
    wordOfBytes_byteOfWord]

/-- The cell under the cursor holds what was stored in it (R110). -/
@[simp] theorem readWord_dp_storeCell (s : State) (v : Word) :
    (storeCell s v).readWord s.dp = v :=
  s.mem.readWord_writeWord_same s.dp.toNat v

/-- Storing in a cell that lies in range changes no byte outside its four (R110). -/
theorem readByte_storeCell_outside (hlow : 0 ≤ s.dp) (v : Word) {b : Nat}
    (hb : (b : Int) < s.dp ∨ s.dp + 4 ≤ b) :
    (storeCell s v).mem.readByte b = s.mem.readByte b :=
  s.mem.readByte_writeWord_outside s.dp.toNat v (by omega)

/-- The signed reading of a wrapped integer: its residue modulo `2^32`, less `2^32` from `2^31`
on (R8). -/
theorem signed32_wrap32 (z : Int) :
    signed32 (wrap32 z) = if z % 2 ^ 32 < 2 ^ 31 then z % 2 ^ 32 else z % 2 ^ 32 - 2 ^ 32 := by
  have hz := toNat_wrap32 z
  rcases signed32_cases (wrap32 z) with ⟨hlt, e⟩ | ⟨hge, e⟩
  · rw [if_pos (by omega)]
    omega
  · rw [if_neg (by omega)]
    omega

/-- The raw and the signed reading of a word differ by a multiple of `2^32`, so a sum wraps to
the same word from either (R111). -/
theorem signed32_add_emod (w : Word) (k : Int) :
    (signed32 w + k) % 2 ^ 32 = (w.toNat + k) % 2 ^ 32 := by
  rcases signed32_cases w with ⟨_, e⟩ | ⟨_, e⟩ <;> omega

/-- A cell that stored a wrapped integer is worth the residue modulo `2^32` (R111). -/
theorem toNat_readWord_dp_storeCell_wrap32 (s : State) (z : Int) :
    (((storeCell s (wrap32 z)).readWord s.dp).toNat : Int) = z % 2 ^ 32 := by
  rw [readWord_dp_storeCell]
  exact toNat_wrap32 z

/-- ADD with a usable cell stores the wrapped sum in it (R110, R111). -/
theorem exec_add_of_usable (h : s.CellUsable) (imm : Int) :
    exec (.add imm) s = .next (storeCell s (wrap32 ((cellValue s).toNat + imm))) := by
  rw [exec_add, withCell_of_usable h]

/-- ADD with the cursor out of range takes the stop DP_OUT_OF_RANGE (R110, R155). -/
theorem exec_add_of_not_inRange (h : ¬ InRange s.memSize s.dp) (imm : Int) :
    exec (.add imm) s = .next (takeStop (.dpOutOfRange s.dp) s) := by
  rw [exec_add, withCell_of_not_inRange h]

/-- ADD with the cursor in range and misaligned takes the stop DP_MISALIGNED (R110, R156). -/
theorem exec_add_of_not_aligned (h : InRange s.memSize s.dp) (h' : ¬ Aligned s.dp) (imm : Int) :
    exec (.add imm) s = .next (takeStop (.dpMisaligned s.dp) s) := by
  rw [exec_add, withCell_of_not_aligned h h']

/-- The step that fetches the encoding sum of ADD is ADD, run on the state with `pc` advanced
(R75, R110). -/
theorem step_of_add_fetched {imm : Int} (hrun : s.Running) (hf : s.Fetchable)
    (himm : ImmInRange imm) (hw : ((fetchWord s).toNat : Int) = 2 ^ 30 + imm % 2 ^ 30) :
    step s = exec (.add imm) (advance s) := by
  have hword : ((fetchWord s).toNat : Int) =
      (Instr.add imm).opcode * 2 ^ 30 + (Instr.add imm).imm % 2 ^ 30 := by
    simpa [Instr.opcode, Instr.imm] using hw
  exact step_of_toNat_fetchWord hrun hf himm hword

/-- Settles O18: the step is ADD on the state with `pc` advanced, whose cursor, capacity and
memory are those of `s`; the checks on the cursor then decide between the two stops and the
store of the sum. -/
theorem addStep : Obligations.AddStep := by
  intro s imm hrun hf hmin hmax hw
  have hstep : step s = exec (.add imm) (advance s) :=
    step_of_add_fetched hrun hf ⟨hmin, hmax⟩ hw
  refine ⟨fun hout => ?outOfRange, fun hin hmis => ?misaligned, fun hin hal => ?usable⟩
  case outOfRange => exact hstep.trans (exec_add_of_not_inRange (s := advance s) hout imm)
  case misaligned => exact hstep.trans (exec_add_of_not_aligned (s := advance s) hin hmis imm)
  case usable =>
    refine ⟨_, hstep.trans (exec_add_of_usable (s := advance s) ⟨hin, hal⟩ imm),
      rfl, rfl, rfl, rfl, ?value, fun b hb => ?frame⟩
    case value => exact toNat_readWord_dp_storeCell_wrap32 (advance s) _
    case frame => exact readByte_storeCell_outside (s := advance s) hin.1 _ hb

/-- Settles O19: the stored word is the wrapped sum of the raw value and the operand, and the
raw and the signed sum have the same residue modulo `2^32`. -/
theorem addWrapsAround : Obligations.AddWrapsAround := by
  intro imm s hin hal
  refine ⟨_, exec_add_of_usable ⟨hin, hal⟩ imm, rfl, ?raw, ?signed⟩
  case raw => exact toNat_readWord_dp_storeCell_wrap32 s _
  case signed =>
    rw [readWord_dp_storeCell, signed32_wrap32, signed32_add_emod]
    rfl

end Sys2Proof.Machine

/-! The statements about `spec/43_bnz.md`. First BNZ for each outcome of the checks on the
cursor and of the test of the cell. Then the step that fetches BNZ: the word that decodes to it,
and the taken branch, which both statements need. A bad target is left to the fetch checks of
the step after it. -/

namespace Sys2Proof

/-- The encoding sum of BNZ, whose opcode is 2, decodes to BNZ (R75, R120). -/
theorem decode_eq_bnz {w : Word} {imm : Int} (himm : ImmInRange imm)
    (hw : (w.toNat : Int) = 2 ^ 31 + imm % 2 ^ 30) : decode w = .bnz imm := by
  have hsum : (w.toNat : Int) =
      (Instr.bnz imm).opcode * 2 ^ 30 + (Instr.bnz imm).imm % 2 ^ 30 := by
    simp only [Instr.opcode, Instr.imm]
    omega
  exact decode_eq_of_toNat himm hsum

end Sys2Proof

namespace Sys2Proof.Machine

variable {s : State} {imm : Int}

/-- BNZ with a usable, nonzero cell adds the displacement to `pc`, whatever the target is
(R120, R123). -/
theorem exec_bnz_of_nonzero (h : s.CellUsable) (hv : Nonzero (cellValue s)) (imm : Int) :
    exec (.bnz imm) s = .next (s.setPc (s.pc + imm)) := by
  rw [exec_bnz, withCell_of_usable h, if_pos hv]

/-- BNZ with a usable cell that holds 0 changes nothing (R120). -/
theorem exec_bnz_of_zero (h : s.CellUsable) (hv : cellValue s = 0#32) (imm : Int) :
    exec (.bnz imm) s = .next s := by
  rw [exec_bnz, withCell_of_usable h, if_neg (not_not.2 hv)]

/-- BNZ with the cursor out of range takes the stop DP_OUT_OF_RANGE (R120, R155). -/
theorem exec_bnz_of_not_inRange (h : ¬ InRange s.memSize s.dp) (imm : Int) :
    exec (.bnz imm) s = .next (takeStop (.dpOutOfRange s.dp) s) := by
  rw [exec_bnz, withCell_of_not_inRange h]

/-- BNZ with the cursor in range and misaligned takes the stop DP_MISALIGNED (R120, R156). -/
theorem exec_bnz_of_not_aligned (h : InRange s.memSize s.dp) (h' : ¬ Aligned s.dp) (imm : Int) :
    exec (.bnz imm) s = .next (takeStop (.dpMisaligned s.dp) s) := by
  rw [exec_bnz, withCell_of_not_aligned h h']

/-- The step that fetches BNZ is BNZ, run on the state with `pc` advanced (R92 to R94). -/
theorem step_of_decode_bnz (hrun : s.Running) (hf : s.Fetchable)
    (hd : decode (fetchWord s) = .bnz imm) : step s = exec (.bnz imm) (advance s) := by
  rw [step_of_fetchable hrun hf, hd]

/-- A taken BNZ goes to its displacement from the following instruction (R120, R121). -/
theorem step_of_bnz_taken (hrun : s.Running) (hf : s.Fetchable)
    (hd : decode (fetchWord s) = .bnz imm) (hcell : s.CellUsable) (hv : Nonzero (cellValue s)) :
    step s = .next { s with pc := s.pc + 4 + imm } :=
  calc step s
      = exec (.bnz imm) (advance s) := step_of_decode_bnz hrun hf hd
    _ = .next ((advance s).setPc ((advance s).pc + imm)) :=
        exec_bnz_of_nonzero (s := advance s) hcell hv imm
    _ = .next { s with pc := s.pc + 4 + imm } := rfl

/-- Settles O22: the fetched word is BNZ, run on the state with `pc` advanced, whose cursor,
capacity and memory are those of `s`; the checks on the cursor give the two stops, and the value
of a usable cell decides whether the branch is taken. -/
theorem bnzStep : Obligations.BnzStep := by
  intro s imm hrun hf hmin hmax hw
  have hd : decode (fetchWord s) = .bnz imm := decode_eq_bnz ⟨hmin, hmax⟩ hw
  have hstep : step s = exec (.bnz imm) (advance s) := step_of_decode_bnz hrun hf hd
  refine ⟨fun hout => ?outOfRange, fun hin hmis => ?misaligned, fun hin hal hv => ?taken,
    fun hin hal hv => ?notTaken⟩
  case outOfRange => exact hstep.trans (exec_bnz_of_not_inRange (s := advance s) hout imm)
  case misaligned => exact hstep.trans (exec_bnz_of_not_aligned (s := advance s) hin hmis imm)
  case taken => exact step_of_bnz_taken hrun hf hd ⟨hin, hal⟩ hv
  case notTaken => exact hstep.trans (exec_bnz_of_zero (s := advance s) ⟨hin, hal⟩ hv imm)

/-- Settles O23: the taken branch leaves the latch and the capacity alone, so the state at the
target still runs, and its own fetch checks take the stop with the target on record. -/
theorem badTargetStopsAtTheNextFetch : Obligations.BadTargetStopsAtTheNextFetch := by
  intro s imm hrun hf hd hcell hv
  refine ⟨_, step_of_bnz_taken hrun hf hd hcell hv, rfl, fun hout => ?outOfRange,
    fun hin hmis => ?misaligned⟩
  case outOfRange => exact step_of_not_inRange hrun hout
  case misaligned => exact step_of_not_aligned hrun hin hmis

end Sys2Proof.Machine

/-! The statements about `spec/60_exceptions.md`. First the reserved word: encoding what a word
decodes to gives the word back, so the record of opcode 3 holds the word that was fetched. Then
which stop a step takes, said once for a cell access, for an instruction and for the step of a
running machine; each cause of the table of R151 is one case of the last. -/

namespace Sys2Proof

/-- The signed reading of a 30-bit field has that field as its residue modulo `2^30` (R8). -/
theorem sext30_emod {f : Nat} (hf : f < 2 ^ 30) : sext30 f % 2 ^ 30 = f := by
  rcases sext30_cases f with ⟨_, e⟩ | ⟨_, e⟩ <;> omega

/-- A word is the encoding of what it decodes to: its two fields make it up (R71, R72, R75). -/
@[simp] theorem encode_decode (w : Word) : encode (decode w) = w := by
  have himm : sext30 (immField w) % 2 ^ 30 = immField w := sext30_emod (Nat.mod_lt _ (by decide))
  apply BitVec.eq_of_toNat_eq
  rw [encode, Machine.opcode_decode, Machine.imm_decode, himm, Int.toNat_natCast, opcodeField, immField,
    Nat.div_add_mod', BitVec.ofNat_toNat, BitVec.setWidth_eq]

/-- The opcode field, cut out of the word as its bits 31 and 30 (R72). -/
theorem extractLsb'_eq_iff_opcodeField {w : Word} {k : Nat} (hk : k < 4) :
    w.extractLsb' 30 2 = BitVec.ofNat 2 k ↔ opcodeField w = k := by
  have hw : w.toNat < 4294967296 := w.isLt
  rw [← BitVec.toNat_inj, BitVec.extractLsb'_toNat, BitVec.toNat_ofNat,
    Nat.shiftRight_eq_div_pow, opcodeField]
  omega

/-- The words with opcode 3 are those from `0xC0000000` up (R77). -/
theorem opcodeField_eq_three_iff (w : Word) : opcodeField w = 3 ↔ 0xC0000000 ≤ w.toNat := by
  have hw : w.toNat < 4294967296 := w.isLt
  unfold opcodeField
  omega

end Sys2Proof

namespace Sys2Proof.Machine

variable {s t : State} {why : Stop}

/-- An instruction of the reserved row is the stop ILLEGAL_INSTRUCTION with its own encoding on
record (R94, R154). -/
theorem exec_of_opcode_three {i : Instr} (h : i.opcode = 3) (s : State) :
    exec i s = .next (takeStop (.illegalInstruction (s.pc - 4) (encode i)) s) := by
  cases i with
  | reserved3 imm => exact exec_reserved3 imm s
  | right imm | add imm | bnz imm => simp [Instr.opcode] at h

/-- A fetched reserved word stops the machine with its address and itself on record, after the
advance (R92, R154). -/
theorem step_of_reserved_fetched (hrun : s.Running) (hf : s.Fetchable)
    (hop : opcodeField (fetchWord s) = 3) :
    step s = .next (takeStop (.illegalInstruction s.pc (fetchWord s)) (advance s)) := by
  rw [step_of_fetchable hrun hf, exec_of_opcode_three ((opcode_decode _).trans hop),
    encode_decode, advance_pc, Int.add_sub_cancel]

/-- Settles O27: a word from `0xC0000000` up has opcode 3, whose step is the stop; as data its
top bit is set, so it is worth its raw value less `2^32`. -/
theorem reservedWordStopsTheMachine : Obligations.ReservedWordStopsTheMachine := by
  constructor
  · intro s hrun hf hw
    exact step_of_reserved_fetched hrun hf ((opcodeField_eq_three_iff _).2 hw)
  · intro w hw
    have hlt : w.toNat < 4294967296 := w.isLt
    rcases signed32_cases w with ⟨hsmall, _⟩ | ⟨_, e⟩
    · omega
    · constructor <;> omega

/-- A cell access whose use leaves the machine running stops it exactly by the checks on the
cursor (R94). -/
theorem status_withCell {use : Word → State} (huse : ∀ v, (use v).Running)
    (h : withCell s use = .next t) : t.status = .stopped why ↔ cellStop s = some why := by
  unfold withCell at h
  cases hc : cellStop s with
  | none =>
    rw [hc] at h
    obtain rfl : use (cellValue s) = t := by simpa using h
    simp [huse (cellValue s)]
  | some failed =>
    rw [hc] at h
    obtain rfl : takeStop failed s = t := by simpa using h
    simp

/-- The stops of an instruction (R94): opcode 3 takes its own, ADD and BNZ take those of the
checks on the cursor, and there is no other. -/
theorem status_exec {i : Instr} (hrun : s.Running) (h : exec i s = .next t) :
    t.status = .stopped why ↔
      (i.opcode = 3 ∧ why = .illegalInstruction (s.pc - 4) (encode i)) ∨
        ((i.opcode = 1 ∨ i.opcode = 2) ∧ cellStop s = some why) := by
  cases i with
  | right imm =>
    obtain rfl : s.setDp (s.dp + imm) = t := by simpa using h
    simp [Instr.opcode, hrun]
  | add imm =>
    have huse (v : Word) : (storeCell s (wrap32 (v.toNat + imm))).Running := hrun
    rw [exec_add] at h
    simp [Instr.opcode, status_withCell huse h]
  | bnz imm =>
    have huse (v : Word) : (if Nonzero v then s.setPc (s.pc + imm) else s).Running := by
      split <;> exact hrun
    rw [exec_bnz] at h
    simp [Instr.opcode, status_withCell huse h]
  | reserved3 imm =>
    obtain rfl : takeStop (.illegalInstruction (s.pc - 4) (encode (.reserved3 imm))) s = t := by
      simpa using h
    simp [Instr.opcode, eq_comm]

/-- The stops of a step of a running machine, in the order of the checks (R91, R94, R159): a
failed fetch check, then opcode 3, then for ADD and BNZ a failed check on the cursor. -/
theorem status_step (hrun : s.Running) (h : step s = .next t) :
    t.status = .stopped why ↔
      fetchStop s = some why ∨
        s.Fetchable ∧ opcodeField (fetchWord s) = 3 ∧
          why = .illegalInstruction s.pc (fetchWord s) ∨
        s.Fetchable ∧ (opcodeField (fetchWord s) = 1 ∨ opcodeField (fetchWord s) = 2) ∧
          cellStop s = some why := by
  cases hfetch : fetchStop s with
  | some failed =>
    have hnot : ¬ s.Fetchable := by simp [← fetchStop_eq_none, hfetch]
    rw [step_of_fetchStop hrun hfetch] at h
    obtain rfl : takeStop failed s = t := by simpa using h
    simp [hnot]
  | none =>
    have hf : s.Fetchable := fetchStop_eq_none.1 hfetch
    rw [step_of_fetchable hrun hf] at h
    rw [status_exec (s := advance s) hrun h]
    simp [opcode_decode, and_iff_right hf]

/-- Settles O30: every clause for a cause is `status_step` at that cause: the records of the
other causes are other stops, and the two failed checks are spelled out by the laws of
`fetchStop` and `cellStop`. The codes are those of the definition. -/
theorem stopCausesAreExact : Obligations.StopCausesAreExact := by
  refine ⟨fun s t hrun h => ?causes, fun a w => ⟨rfl, rfl, rfl, rfl, rfl⟩, rfl⟩
  have hone := extractLsb'_eq_iff_opcodeField (w := fetchWord s) (k := 1) (by decide)
  have htwo := extractLsb'_eq_iff_opcodeField (w := fetchWord s) (k := 2) (by decide)
  have hthree := extractLsb'_eq_iff_opcodeField (w := fetchWord s) (k := 3) (by decide)
  simp only [hone, htwo, hthree, status_step hrun h, fetchStop_eq_some, cellStop_eq_some]
  refine ⟨fun a => ?fetchOutOfRange, fun a => ?fetchMisaligned, fun a w => ?illegalInstruction,
    fun a => ?dpOutOfRange, fun a => ?dpMisaligned⟩ <;> simp

end Sys2Proof.Machine

/-! The statement about `spec/70_reset_and_hazards.md`: at a legal capacity, the length of the
image alone decides which case of `load_cases` a load is. -/

namespace Sys2Proof.Machine

variable {n : Nat} {image : List Byte}

/-- At a legal capacity, an image that is too long is refused with its length and the capacity,
whatever `MEM_INIT` is (R183). -/
theorem load_of_length_gt (hcap : 0 < n ∧ n % 4 = 0) (hlen : n < image.length)
    (memInit : Nat → Byte) :
    load n image memInit = .refused (.imageTooLarge image.length n) := by
  obtain ⟨hillegal, _⟩ | ⟨_, _, hrefused⟩ | ⟨_, hfits, _⟩ := load_cases n image memInit
  · exact absurd hcap hillegal
  · exact hrefused
  · exact absurd hlen hfits.not_gt

/-- At a legal capacity, an image that is no longer than it gives a state (R181, R183). -/
theorem exists_load_of_length_le (hcap : 0 < n ∧ n % 4 = 0) (hlen : image.length ≤ n)
    (memInit : Nat → Byte) : ∃ s, load n image memInit = .next s := by
  obtain ⟨hillegal, _⟩ | ⟨_, hlong, _⟩ | ⟨_, _, s, hloaded, _⟩ := load_cases n image memInit
  · exact absurd hcap hillegal
  · exact absurd hlen hlong.not_ge
  · exact ⟨s, hloaded⟩

/-- Settles O8: the refusal is that of every longer image, and an image of exactly the capacity
is the largest that fits. -/
theorem oversizeImageIsRefused : Obligations.OversizeImageIsRefused := by
  intro n image memInit hpos hmul
  constructor
  · intro hlong
    exact load_of_length_gt ⟨hpos, hmul⟩ hlong memInit
  · intro hexact
    exact exists_load_of_length_le ⟨hpos, hmul⟩ hexact.le memInit

end Sys2Proof.Machine

/-! The statements about `spec/30_encoding.md`. First the two fields of a word in their readings as
bits and as numbers; from them the encoder and the decoder as inverse functions, the rows of the
opcode map and the ranges of a cell's value. Then ADD on an instruction word: what the sum does to
each of the two fields. -/

namespace Sys2Proof

open Machine

variable {w : Word} {i : Instr}

/-- The opcode field as the number of the bits 31 and 30 (R72). -/
theorem toNat_extractLsb'_opcode (w : Word) : (w.extractLsb' 30 2).toNat = opcodeField w := by
  have hw : w.toNat < 4294967296 := w.isLt
  rw [BitVec.extractLsb'_toNat, Nat.shiftRight_eq_div_pow, opcodeField]
  omega

/-- The immediate as the two's complement value of the low 30 bits (R71, R73). -/
theorem toInt_setWidth_imm (w : Word) : (w.setWidth 30).toInt = sext30 (immField w) := by
  rw [BitVec.toInt_eq_toNat_cond, BitVec.toNat_setWidth, ← immField]
  rcases sext30_cases (immField w) with ⟨hf, e⟩ | ⟨hf, e⟩
  · rw [if_pos (by omega), e]
  · rw [if_neg (by omega), e]
    norm_num

/-- An opcode is a 2-bit number (R72). -/
theorem opcode_lt_four (i : Instr) : i.opcode < 4 := by
  cases i <;> simp [Instr.opcode]

/-- The value of an encoding is the sum of R75: it does not wrap. -/
theorem toNat_encode (i : Instr) :
    ((encode i).toNat : Int) = i.opcode * 2 ^ 30 + i.imm % 2 ^ 30 := by
  have hop : i.opcode < 4 := opcode_lt_four i
  rw [encode, BitVec.toNat_ofNat]
  omega

/-- Decoding undoes encoding on every representable immediate (R75). -/
theorem decode_encode (hi : i.WellFormed) : decode (encode i) = i :=
  decode_eq_of_toNat hi (toNat_encode i)

/-- The field of an instruction word is a 30-bit number (R71). -/
theorem immField_lt (w : Word) : immField w < 2 ^ 30 :=
  Nat.mod_lt _ (by decide)

/-- The opcode field of an instruction word is a 2-bit number (R72). -/
theorem opcodeField_lt (w : Word) : opcodeField w < 4 :=
  opcode_decode w ▸ opcode_lt_four (decode w)

/-- A sign-extended field is a representable immediate (R73). -/
theorem immInRange_sext30 {f : Nat} (hf : f < 2 ^ 30) : ImmInRange (sext30 f) := by
  suffices h : -536870912 ≤ sext30 f ∧ sext30 f ≤ 536870911 from h
  rcases sext30_cases f with ⟨_, e⟩ | ⟨_, e⟩ <;> omega

/-- A decoded immediate is always representable (R73). -/
theorem wellFormed_decode (w : Word) : (decode w).WellFormed := by
  rw [Instr.WellFormed, imm_decode]
  exact immInRange_sext30 (immField_lt w)

/-- Settles O1: the sum of R75 gives the value of an encoding and, read backwards, its decoding;
the fields as bits are the fields as numbers; the assembler's test is representability. -/
theorem encodeAndDecodeAreInverse : Obligations.EncodeAndDecodeAreInverse := by
  refine ⟨toNat_encode, fun w => ⟨?opcode, ?imm⟩, fun i hmin hmax => ⟨?inverse, ?accepted⟩,
    fun i hout => ?refused, fun w => ⟨wellFormed_decode w, encode_decode w⟩⟩
  case opcode => rw [opcode_decode, toNat_extractLsb'_opcode]
  case imm => rw [imm_decode, toInt_setWidth_imm]
  case inverse => exact decode_encode ⟨hmin, hmax⟩
  case accepted => exact if_pos ⟨hmin, hmax⟩
  case refused => exact if_neg fun ⟨hmin, hmax⟩ => hout.elim (not_lt.2 hmin) (not_lt.2 hmax)

/-- The four bytes of a word, at the head of a byte string, are taken off it and decoded (R70). -/
theorem decodeBytes_bytesOfWord_append (w : Word) (rest : List Byte) :
    decodeBytes (bytesOfWord w ++ rest) = .instr (decode w) rest := by
  simp [bytesOfWord, decodeBytes]

/-- Settles O2: the four bytes of the encoding make up the encoding again, which decodes to the
instruction. -/
theorem encodedBytesDecodeInPlace : Obligations.EncodedBytesDecodeInPlace := by
  intro i rest hi
  refine ⟨rfl, ?_⟩
  rw [encodeBytes, decodeBytes_bytesOfWord_append, decode_encode hi]

/-- The masked bits of a word are those of a row exactly when its opcode field is the row's
number (R76). -/
theorem and_opcodeMask_eq_iff {k : Nat} (hk : k < 4) :
    w &&& 0xC0000000#32 = BitVec.ofNat 32 (k * 2 ^ 30) ↔ opcodeField w = k := by
  have hw : w.toNat < 4294967296 := w.isLt
  rw [and_opcodeMask, ← BitVec.toNat_inj, BitVec.toNat_ofNat, BitVec.toNat_ofNat]
  unfold opcodeField
  omega

/-- A word is the instruction with its low 30 bits as operand exactly when it has the opcode of
that instruction (R76). -/
theorem decode_eq_iff_opcodeField (himm : i.imm = (w.setWidth 30).toInt) :
    decode w = i ↔ opcodeField w = i.opcode := by
  constructor
  · rintro rfl
    exact (opcode_decode w).symm
  · intro hop
    exact decode_eq_of_fields hop (himm.trans (toInt_setWidth_imm w)).symm

/-- A word lies in the row of an instruction exactly when it is that instruction with its own
low 30 bits as operand (R76). -/
theorem and_opcodeMask_eq_iff_decode {k : Nat} (hop : i.opcode = k)
    (himm : i.imm = (w.setWidth 30).toInt) :
    w &&& 0xC0000000#32 = BitVec.ofNat 32 (k * 2 ^ 30) ↔ decode w = i := by
  subst hop
  exact (and_opcodeMask_eq_iff (opcode_lt_four i)).trans (decode_eq_iff_opcodeField himm).symm

/-- Settles O3: each row is the instruction of its opcode number, and the opcode field of a word
has one of the four numbers. -/
theorem opcodeMapPartitionsTheWords : Obligations.OpcodeMapPartitionsTheWords := by
  intro w
  refine ⟨and_opcodeMask_eq_iff_decode (k := 0) (i := .right _) rfl rfl,
    and_opcodeMask_eq_iff_decode (k := 1) (i := .add _) rfl rfl,
    and_opcodeMask_eq_iff_decode (k := 2) (i := .bnz _) rfl rfl,
    and_opcodeMask_eq_iff_decode (k := 3) (i := .reserved3 _) rfl rfl, ?partition⟩
  case partition =>
    rw [and_opcodeMask]
    rcases decode_cases w with ⟨h, _⟩ | ⟨h, _⟩ | ⟨h, _⟩ | ⟨h, _⟩ <;> simp [h]

/-- A signed value is made of the two fields: the opcode counts in steps of `2^30`, and opcodes
2 and 3 stand for the negative values (R79). -/
theorem signed32_eq_fields (w : Word) :
    (opcodeField w < 2 ∧ signed32 w = opcodeField w * 2 ^ 30 + immField w) ∨
      (2 ≤ opcodeField w ∧ signed32 w = ((opcodeField w : Int) - 4) * 2 ^ 30 + immField w) := by
  unfold opcodeField immField
  rcases signed32_cases w with ⟨_, e⟩ | ⟨_, e⟩
  · left; omega
  · right; omega

/-- Settles O4: the range of the value gives the two fields, and for opcode 0 the sign of the
immediate too. -/
theorem cellValueReadAsInstruction : Obligations.CellValueReadAsInstruction := by
  intro w
  have hfield := immField_lt w
  have hop := opcodeField_lt w
  have hvalue := signed32_eq_fields w
  have himm := sext30_cases (immField w)
  refine ⟨fun ⟨hlow, hhigh⟩ => decode_eq_of_fields ?op0 ?imm0,
    fun ⟨hlow, hhigh⟩ => decode_eq_of_fields ?op0' ?imm0',
    fun ⟨hlow, hhigh⟩ => ⟨_, decode_eq_of_fields (i := .add _) ?op1 rfl⟩,
    fun ⟨hlow, hhigh⟩ => ⟨_, decode_eq_of_fields (i := .bnz _) ?op2 rfl⟩,
    fun ⟨hlow, hhigh⟩ => ⟨_, decode_eq_of_fields (i := .reserved3 _) ?op3 rfl⟩⟩ <;>
  simp only [Instr.opcode, Instr.imm] <;> omega

/-- Settles O5: the bytes of each word are put together and decoded. -/
theorem writtenOutWordsDecode : Obligations.WrittenOutWordsDecode :=
  ⟨by decide, by decide, by decide, by decide, by decide⟩

/-- The field of a sum moves by the operand modulo `2^30` (R115). -/
theorem immField_wrap32_add (w : Word) (k : Int) :
    (immField (wrap32 (w.toNat + k)) : Int) = (immField w + k) % 2 ^ 30 := by
  have hsum := toNat_wrap32 (w.toNat + k)
  unfold immField
  omega

/-- The opcode of a sum moves by what the field carries or borrows, modulo 4 (R115). -/
theorem opcodeField_wrap32_add (w : Word) (k : Int) :
    (opcodeField (wrap32 (w.toNat + k)) : Int) =
      (opcodeField w + (immField w + k) / 2 ^ 30) % 4 := by
  have hsum := toNat_wrap32 (w.toNat + k)
  unfold opcodeField immField
  omega

/-- The signed reading of a 30-bit field moves with the field as long as its sign stays (R115). -/
theorem sext30_moved_iff {f : Nat} {k : Int} (hf : f < 2 ^ 30) (hlow : 0 ≤ f + k)
    (hhigh : f + k ≤ 2 ^ 30 - 1) :
    sext30 (f + k).toNat = sext30 f + k ↔
      (0 ≤ sext30 f ∧ 0 ≤ sext30 f + k ∧ sext30 f + k ≤ 2 ^ 29 - 1) ∨
        (sext30 f < 0 ∧ -2 ^ 29 ≤ sext30 f + k ∧ sext30 f + k < 0) := by
  obtain ⟨g, hg⟩ := Int.eq_ofNat_of_zero_le hlow
  have hk : k = g - f := by omega
  rw [hg, Int.toNat_natCast]
  subst hk
  rcases sext30_cases f with ⟨_, e⟩ | ⟨_, e⟩ <;> rcases sext30_cases g with ⟨_, e'⟩ | ⟨_, e'⟩ <;>
    rw [e, e'] <;> omega
/-- Settles O6: a moved field that is a 30-bit field is its own residue and carries nothing into
the opcode, and a residue is always a 30-bit field. The immediate then reads both fields by
their sign bits. -/
theorem addOnAnInstructionWord : Obligations.AddOnAnInstructionWord := by
  intro w k
  have hfield := immField_wrap32_add w k
  have hopcode := opcodeField_wrap32_add w k
  have hop := opcodeField_lt w
  refine ⟨?moves, fun hlow hhigh => ?immediate⟩
  case moves =>
    rw [opcode_decode, opcode_decode]
    constructor <;> intro h <;> omega
  case immediate =>
    have hmoved : immField (wrap32 (w.toNat + k)) = ((immField w : Int) + k).toNat := by omega
    rw [imm_decode, imm_decode, hmoved]
    exact ⟨rfl, sext30_moved_iff (immField_lt w) hlow hhigh⟩

end Sys2Proof

/-! The statements about words and lists of `spec/20_memory.md` and about
`spec/70_reset_and_hazards.md`: a word read depends on its four bytes alone; a canonical list is
found again from the bytes it reads as, head first; and what a load leaves in memory. -/

namespace Sys2Proof.Machine

variable {m m' : Memory} {a n : Nat}

/-- Memories that agree on the four bytes of a word read the same word (R43). -/
theorem Memory.readWord_congr (h : ∀ b, a ≤ b → b < a + 4 → m.readByte b = m'.readByte b) :
    m.readWord a = m'.readWord a := by
  rw [readWord, readWord, h a (by omega) (by omega), h (a + 1) (by omega) (by omega),
    h (a + 2) (by omega) (by omega), h (a + 3) (by omega) (by omega)]

/-- Settles O12: the word itself reads back, and a word beside it lies in the frame. -/
theorem wordReadsBackAsWritten : Obligations.WordReadsBackAsWritten := by
  intro m a b v
  refine ⟨m.readWord_writeWord_same a v, fun hdisjoint =>
    Memory.readWord_congr fun c hlow hhigh => ?_⟩
  exact m.readByte_writeWord_outside a v (by omega)

/-- A canonical list reads as unlisted below its first entry. -/
theorem Memory.readByte_cons_of_lt {c : Host.Cell} (h : Memory.wf (c :: m) = true) (ha : a < c.1) :
    Memory.readByte (c :: m) a = unlistedByte := by
  obtain ⟨_, hrising, _⟩ := (Memory.wf_cons c m).1 h
  refine Memory.readByte_of_not_listed fun d hd => ?_
  rcases List.mem_cons.1 hd with rfl | hd
  · exact ha.ne'
  · exact (ha.trans (hrising d hd)).ne'

/-- The rest of a canonical list does not name the address of its first entry. -/
theorem Memory.readByte_tail_head {c : Host.Cell} (h : Memory.wf (c :: m) = true) :
    m.readByte c.1 = unlistedByte := by
  obtain ⟨_, hrising, _⟩ := (Memory.wf_cons c m).1 h
  exact Memory.readByte_of_not_listed fun d hd => (hrising d hd).ne'

/-- A canonical list reads, at the address of its first entry, a byte that is not unlisted. -/
theorem Memory.readByte_head_ne {c : Host.Cell} (h : Memory.wf (c :: m) = true) :
    Memory.readByte (c :: m) c.1 ≠ unlistedByte := by
  rw [Memory.readByte_cons, if_pos rfl]
  exact ((Memory.wf_cons c m).1 h).1

/-- Canonical lists with the same bytes have their first entries at the same address: neither
can begin below the other. -/
theorem Memory.head_address_le {c c' : Host.Cell} (h : Memory.wf (c :: m) = true)
    (h' : Memory.wf (c' :: m') = true)
    (heq : ∀ a, Memory.readByte (c :: m) a = Memory.readByte (c' :: m') a) : c'.1 ≤ c.1 := by
  by_contra hlt
  exact Memory.readByte_head_ne h
    ((heq c.1).trans (Memory.readByte_cons_of_lt h' (not_le.1 hlt)))

/-- Canonical lists with the same bytes have the same first entry. -/
theorem Memory.head_eq {c c' : Host.Cell} (h : Memory.wf (c :: m) = true)
    (h' : Memory.wf (c' :: m') = true)
    (heq : ∀ a, Memory.readByte (c :: m) a = Memory.readByte (c' :: m') a) : c = c' := by
  have haddress : c.1 = c'.1 :=
    le_antisymm (Memory.head_address_le h' h fun a => (heq a).symm)
      (Memory.head_address_le h h' heq)
  have hbyte := heq c.1
  rw [Memory.readByte_cons, Memory.readByte_cons, if_pos rfl, if_pos haddress.symm] at hbyte
  exact Prod.ext haddress hbyte

/-- Canonical lists with the same first entry and the same bytes have the same bytes without
it. -/
theorem Memory.tail_readByte_eq {c : Host.Cell} (h : Memory.wf (c :: m) = true)
    (h' : Memory.wf (c :: m') = true)
    (heq : ∀ a, Memory.readByte (c :: m) a = Memory.readByte (c :: m') a) (a : Nat) :
    m.readByte a = m'.readByte a := by
  by_cases ha : c.1 = a
  · rw [← ha, Memory.readByte_tail_head h, Memory.readByte_tail_head h']
  · have hbyte := heq a
    rwa [Memory.readByte_cons, Memory.readByte_cons, if_neg ha, if_neg ha] at hbyte

/-- Settles O13, by induction on the first list: an entry of one list that the other lacks would
be a byte on which they differ, so the heads are equal, and the tails read alike. -/
theorem canonicalMemoryIsUnique : Obligations.CanonicalMemoryIsUnique := by
  intro m
  induction m with
  | nil =>
    rintro (_ | ⟨c', m'⟩) _ h' heq
    · rfl
    · exact absurd (heq c'.1).symm (Memory.readByte_head_ne h')
  | cons c m ih =>
    rintro (_ | ⟨c', m'⟩) h h' heq
    · exact absurd (heq c.1) (Memory.readByte_head_ne h)
    · obtain rfl := Memory.head_eq h h' heq
      obtain ⟨_, _, hm⟩ := (Memory.wf_cons c m).1 h
      obtain ⟨_, _, hm'⟩ := (Memory.wf_cons c m').1 h'
      rw [ih m' hm hm' (Memory.tail_readByte_eq h h' heq)]

/-- An array of unlisted bytes has the empty list. -/
theorem Memory.ofBytes_eq_nil {f : Nat → Byte} (h : ∀ a, f a = unlistedByte) :
    Memory.ofBytes n f = [] := by
  simp [Memory.ofBytes, h]

/-- Settles O7: at a legal capacity an image that fits is the third case of `load_cases`; its
array reads as the image below its end and as `MEM_INIT` above it, and a positive multiple of 4
leaves room for the first fetch. -/
theorem loadGivesTheResetState : Obligations.LoadGivesTheResetState := by
  intro n image memInit hpos hmul hfits
  obtain ⟨hillegal, _⟩ | ⟨_, hlong, _⟩ | ⟨_, _, s, hload, hsize, hpc, hdp, hstatus, hmem⟩ :=
    load_cases n image memInit
  · exact absurd ⟨hpos, hmul⟩ hillegal
  · exact absurd hfits hlong.not_ge
  have hroom : 4 ≤ n := by omega
  refine ⟨s, hload, hsize, fun a ha => ?image, fun a hlow hhigh => ?init, hpc, hdp, hstatus,
    ?wf, ?fetchable, ?firstWord⟩
  case image =>
    rw [hmem, Memory.readByte_ofBytes, if_pos (ha.trans_le hfits), List.getElem?_eq_getElem ha]
  case init => rw [hmem, Memory.readByte_ofBytes, if_pos hhigh, List.getElem?_eq_none hlow]
  case wf =>
    rw [State.Wf, hsize, hmem]
    exact ⟨hpos, hmul, Memory.wf_ofBytes n _, Memory.within_ofBytes n _⟩
  case fetchable =>
    rw [State.Fetchable, hsize, hpc]
    exact ⟨⟨le_rfl, by omega⟩, rfl⟩
  case firstWord => rw [fetchWord, hpc]

/-- Settles O9: the empty memory is canonical and inside every capacity, and a running machine
has no stop on record. -/
theorem resetSatisfiesTheInvariants : Obligations.ResetSatisfiesTheInvariants :=
  ⟨⟨by decide, by decide, rfl, rfl⟩, trivial, rfl, rfl, rfl⟩

/-- Settles O10: an image of no bytes with zero bytes above it is an array of unlisted bytes. -/
theorem resetIsALoad : Obligations.ResetIsALoad := by
  have hcap : 0 < resetMemSize ∧ resetMemSize % 4 = 0 := by decide
  rw [Obligations.ResetIsALoad, load, if_neg (not_not.2 hcap), if_neg (by simp),
    Memory.ofBytes_eq_nil]
  · rfl
  · exact fun _ => rfl

end Sys2Proof.Machine

/-! The statements about one instruction and one step, from `spec/10_state.md`,
`spec/40_fetch_decode_execute.md` and the instructions' own chapters. First the instructions on a
state written out. Then executing and stepping as relations with one named rule for each thing
that can happen, equivalent to `exec` and `step`; by cases on the rules, what happens to each part
of the state, and from that the frames and the invariants. -/

namespace Sys2Proof.Machine

variable {s t : State} {i : Instr}

/-! Each instruction in the state it answers. -/

/-- Settles O15: the state that `setDp` gives is the one written out. -/
theorem rightCompletes : Obligations.RightCompletes := by
  intro imm s
  exact exec_right imm s

/-- Settles O17: the store of the sum replaces the memory and nothing else. -/
theorem addCompletes : Obligations.AddCompletes := by
  intro imm s hin hal
  exact exec_add_of_usable ⟨hin, hal⟩ imm

/-- Settles O21, by the test of the cell. -/
theorem bnzCompletes : Obligations.BnzCompletes := by
  intro imm s hin hal
  by_cases hv : s.readWord s.dp = 0#32
  · rw [if_pos hv]
    exact exec_bnz_of_zero ⟨hin, hal⟩ hv imm
  · rw [if_neg hv]
    exact exec_bnz_of_nonzero ⟨hin, hal⟩ hv imm

/-- Settles O26: the recorded word is the encoding sum of opcode 3. -/
theorem reserved3Completes : Obligations.Reserved3Completes := by
  intro imm s
  exact exec_reserved3 imm s

/-- Settles O29: the two checks on the cursor are the same for ADD and BNZ, and RIGHT makes
none. -/
theorem cursorChecks : Obligations.CursorChecks := by
  intro imm s
  refine ⟨fun hout => ⟨exec_add_of_not_inRange hout imm, exec_bnz_of_not_inRange hout imm⟩,
    fun hin hmis => ⟨exec_add_of_not_aligned hin hmis imm, exec_bnz_of_not_aligned hin hmis imm⟩,
    fun t h => ?right⟩
  case right =>
    obtain rfl : s.setDp (s.dp + imm) = t := by simpa using h
    rfl

/-! Executing an instruction, rule by rule. -/

/-- What executing an instruction in the state `s` does (R94), one rule for each thing that can
happen; `exec_eq_next_iff` ties the rules to `exec`. -/
inductive Executes (s : State) : Instr → State → Prop
  /-- RIGHT moves the cursor (R100). -/
  | right (imm : Int) : Executes s (.right imm) (s.setDp (s.dp + imm))
  /-- ADD with a usable cell stores the sum (R110). -/
  | add (imm : Int) (hcell : s.CellUsable) :
    Executes s (.add imm) (storeCell s (wrap32 ((cellValue s).toNat + imm)))
  /-- BNZ with a usable, nonzero cell branches (R120). -/
  | bnzTaken (imm : Int) (hcell : s.CellUsable) (hv : Nonzero (cellValue s)) :
    Executes s (.bnz imm) (s.setPc (s.pc + imm))
  /-- BNZ with a usable cell that holds 0 does nothing (R120). -/
  | bnzNotTaken (imm : Int) (hcell : s.CellUsable) (hv : cellValue s = 0#32) :
    Executes s (.bnz imm) s
  /-- ADD and BNZ take the stop of a failed check on the cursor (R155, R156). -/
  | cursorStop {i : Instr} {why : Stop} (hop : i.opcode = 1 ∨ i.opcode = 2)
    (hstop : cellStop s = some why) : Executes s i (takeStop why s)
  /-- Opcode 3 takes its own stop (R154). -/
  | reserved (imm : Int) : Executes s (.reserved3 imm)
    (takeStop (.illegalInstruction (s.pc - 4) (encode (.reserved3 imm))) s)

/-- A cell access that fails a check answers the state with that stop taken (R94). -/
theorem withCell_of_cellStop {why : Stop} (h : cellStop s = some why) (use : Word → State) :
    withCell s use = .next (takeStop why s) := by
  rw [withCell, h]

/-- ADD and BNZ take the stop of a failed check on the cursor (R110, R120). -/
theorem exec_of_cellStop {why : Stop} (hop : i.opcode = 1 ∨ i.opcode = 2)
    (hstop : cellStop s = some why) : exec i s = .next (takeStop why s) := by
  cases i with
  | add imm => rw [exec_add, withCell_of_cellStop hstop]
  | bnz imm => rw [exec_bnz, withCell_of_cellStop hstop]
  | right imm | reserved3 imm => simp [Instr.opcode] at hop

/-- Every instruction can execute by one of the rules (R95). -/
theorem exists_executes (i : Instr) (s : State) : ∃ t, Executes s i t := by
  cases i with
  | right imm => exact ⟨_, .right imm⟩
  | reserved3 imm => exact ⟨_, .reserved imm⟩
  | add imm =>
    cases hc : cellStop s with
    | some why => exact ⟨_, .cursorStop (.inl rfl) hc⟩
    | none => exact ⟨_, .add imm (cellStop_eq_none.1 hc)⟩
  | bnz imm =>
    cases hc : cellStop s with
    | some why => exact ⟨_, .cursorStop (.inr rfl) hc⟩
    | none =>
      by_cases hv : cellValue s = 0#32
      · exact ⟨_, .bnzNotTaken imm (cellStop_eq_none.1 hc) hv⟩
      · exact ⟨_, .bnzTaken imm (cellStop_eq_none.1 hc) hv⟩

/-- Every rule is what `exec` does. -/
theorem Executes.exec_eq (h : Executes s i t) : exec i s = .next t := by
  cases h with
  | right imm => exact exec_right imm s
  | add imm hcell => exact exec_add_of_usable hcell imm
  | bnzTaken imm hcell hv => exact exec_bnz_of_nonzero hcell hv imm
  | bnzNotTaken imm hcell hv => exact exec_bnz_of_zero hcell hv imm
  | cursorStop hop hstop => exact exec_of_cellStop hop hstop
  | reserved imm => exact exec_reserved3 imm s

/-- `exec` answers exactly the states that the rules give. -/
theorem exec_eq_next_iff : exec i s = .next t ↔ Executes s i t := by
  refine ⟨fun h => ?_, Executes.exec_eq⟩
  obtain ⟨u, hu⟩ := exists_executes i s
  obtain rfl : u = t := Host.Outcome.next.inj (hu.exec_eq.symm.trans h)
  exact hu

namespace Executes

/-- No instruction changes the capacity (R31). -/
theorem memSize (h : Executes s i t) : t.memSize = s.memSize := by
  cases h <;> rfl

/-- The cursor stays, or the instruction is RIGHT and moves it by its operand (R24, R100). -/
theorem dp (h : Executes s i t) : t.dp = s.dp ∨ ∃ imm, i = .right imm ∧ t.dp = s.dp + imm := by
  cases h with
  | right imm => exact .inr ⟨imm, rfl, rfl⟩
  | _ => exact .inl rfl

/-- The program counter stays, or the instruction is a taken BNZ and adds its operand
(R22, R120). -/
theorem pc (h : Executes s i t) :
    t.pc = s.pc ∨ ∃ imm, i = .bnz imm ∧ s.CellUsable ∧ Nonzero (cellValue s) ∧
      t.pc = s.pc + imm ∧ t.status = s.status := by
  cases h with
  | bnzTaken imm hcell hv => exact .inr ⟨imm, rfl, hcell, hv, rfl, rfl⟩
  | _ => exact .inl rfl

/-- Memory stays, or the instruction is ADD with a usable cell and writes that cell (R110). -/
theorem mem (h : Executes s i t) :
    t.mem = s.mem ∨ ∃ imm, i = .add imm ∧ s.CellUsable ∧
      t.mem = s.mem.writeWord s.dp.toNat (wrap32 ((cellValue s).toNat + imm)) := by
  cases h with
  | add imm hcell => exact .inr ⟨imm, rfl, hcell, rfl⟩
  | _ => exact .inl rfl

/-- A byte that an instruction changes is one of the four at the cursor, and the instruction is
ADD with a usable cell (R41, R110). -/
theorem of_readByte_ne {b : Nat} (h : Executes s i t)
    (hb : t.mem.readByte b ≠ s.mem.readByte b) :
    (∃ imm, i = .add imm) ∧ s.CellUsable ∧ s.dp ≤ b ∧ (b : Int) < s.dp + 4 := by
  obtain hmem | ⟨imm, hi, hcell, hmem⟩ := h.mem
  · exact absurd (by rw [hmem]) hb
  · refine ⟨⟨imm, hi⟩, hcell, ?_⟩
    have hlow : 0 ≤ s.dp := hcell.1.1
    by_contra hout
    rw [hmem] at hb
    exact hb (s.mem.readByte_writeWord_outside _ _ (by omega))

/-- The latch stays, or the stop taken is that of opcode 3 or that of a failed check on the
cursor, and then nothing else changes (R160). -/
theorem status (h : Executes s i t) :
    t.status = s.status ∨ ∃ why, t = takeStop why s ∧
      ((i.opcode = 3 ∧ why = .illegalInstruction (s.pc - 4) (encode i)) ∨
        ((i.opcode = 1 ∨ i.opcode = 2) ∧ cellStop s = some why)) := by
  cases h with
  | cursorStop hop hstop => exact .inr ⟨_, rfl, .inr ⟨hop, hstop⟩⟩
  | reserved imm => exact .inr ⟨_, rfl, .inl ⟨rfl, rfl⟩⟩
  | _ => exact .inl rfl

/-- RIGHT leaves the latch, and so do ADD and BNZ with a usable cell: only the reserved row and
a failed check on the cursor stop the machine (R160). -/
theorem status_of_ne_reserved (h : Executes s i t) (hne : ∀ imm, i ≠ .reserved3 imm)
    (hcell : (i.opcode = 1 ∨ i.opcode = 2) → s.CellUsable) : t.status = s.status := by
  cases h with
  | cursorStop hop hstop => simp [cellStop_eq_none.2 (hcell hop)] at hstop
  | reserved imm => exact absurd rfl (hne imm)
  | _ => rfl

end Executes

/-- Settles O37: each part of the state is one of the lemmas above; a byte that is not one of
the four of ADD cannot have changed. -/
theorem execFrame : Obligations.ExecFrame := by
  intro i s t hexec
  have h : Executes s i t := exec_eq_next_iff.1 hexec
  refine ⟨h.memSize, fun hne => ?dp, fun hne => ?pc, fun hne b => ?notAdd,
    fun imm hi b hout => ?outside, fun hunusable b => ?unusable, fun imm hi => ?right,
    fun hne hcell => h.status_of_ne_reserved hne fun _ => hcell⟩
  case dp => exact h.dp.resolve_right fun ⟨imm, hi, _⟩ => hne imm hi
  case pc => exact h.pc.resolve_right fun ⟨imm, hi, _⟩ => hne imm hi
  case notAdd =>
    by_contra hb
    obtain ⟨⟨imm, hi⟩, _⟩ := h.of_readByte_ne hb
    exact hne imm hi
  case outside =>
    by_contra hb
    obtain ⟨_, _, hlow, hhigh⟩ := h.of_readByte_ne hb
    omega
  case unusable =>
    by_contra hb
    obtain ⟨_, hcell, _⟩ := h.of_readByte_ne hb
    exact hunusable hcell
  case right =>
    subst hi
    exact h.status_of_ne_reserved nofun nofun

/-! Stepping, rule by rule. -/

/-- What a step from `s` does (R90 to R94), one rule for each kind of step;
`step_eq_next_iff` ties the rules to `step`. -/
inductive Steps (s : State) : State → Prop
  /-- A stopped machine stays as it is (R90). -/
  | stopped (hstopped : ¬ s.Running) : Steps s s
  /-- A failed fetch check takes its stop (R91). -/
  | fetchFails {why : Stop} (hrun : s.Running) (hstop : fetchStop s = some why) :
    Steps s (takeStop why s)
  /-- Otherwise the fetched instruction executes on the advanced state (R92 to R94). -/
  | executes {t : State} (hrun : s.Running) (hf : s.Fetchable)
    (h : Executes (advance s) (decode (fetchWord s)) t) : Steps s t

/-- A stopped machine steps to the same state (R90). -/
theorem step_of_not_running (h : ¬ s.Running) : step s = .next s := by
  obtain ⟨_, hstep⟩ | ⟨hrun, _⟩ | ⟨hrun, _⟩ | ⟨hrun, _⟩ := step_cases s
  · exact hstep
  all_goals exact absurd hrun h

/-- Every state can step by one of the rules (R95). -/
theorem exists_steps (s : State) : ∃ t, Steps s t := by
  by_cases hrun : s.Running
  · cases hfetch : fetchStop s with
    | some why => exact ⟨_, .fetchFails hrun hfetch⟩
    | none =>
      obtain ⟨t, h⟩ := exists_executes (decode (fetchWord s)) (advance s)
      exact ⟨t, .executes hrun (fetchStop_eq_none.1 hfetch) h⟩
  · exact ⟨s, .stopped hrun⟩

/-- Every rule is what `step` does. -/
theorem Steps.step_eq (h : Steps s t) : step s = .next t := by
  cases h with
  | stopped hstopped => exact step_of_not_running hstopped
  | fetchFails hrun hstop => exact step_of_fetchStop hrun hstop
  | executes hrun hf h => exact (step_of_fetchable hrun hf).trans h.exec_eq

/-- `step` answers exactly the states that the rules give. -/
theorem step_eq_next_iff : step s = .next t ↔ Steps s t := by
  refine ⟨fun h => ?_, Steps.step_eq⟩
  obtain ⟨u, hu⟩ := exists_steps s
  obtain rfl : u = t := Host.Outcome.next.inj (hu.step_eq.symm.trans h)
  exact hu

/-- A failed fetch check is one of a state that cannot fetch (R91). -/
theorem not_fetchable_of_fetchStop {why : Stop} (h : fetchStop s = some why) : ¬ s.Fetchable := by
  simp [← fetchStop_eq_none, h]

namespace Steps

/-- No step changes the capacity (R31). -/
theorem memSize (h : Steps s t) : t.memSize = s.memSize := by
  cases h with
  | executes _ _ h => exact h.memSize
  | _ => rfl

/-- The cursor stays, or the machine runs a fetched RIGHT (R24). -/
theorem dp (h : Steps s t) :
    t.dp = s.dp ∨ s.Running ∧ s.Fetchable ∧
      ∃ imm, decode (fetchWord s) = .right imm ∧ t.dp = s.dp + imm := by
  cases h with
  | executes hrun hf h => exact h.dp.imp_right fun hright => ⟨hrun, hf, hright⟩
  | _ => exact .inl rfl

/-- Memory stays, or the machine runs a fetched ADD with a usable cell and writes that cell
(R41). -/
theorem mem (h : Steps s t) :
    t.mem = s.mem ∨ s.Running ∧ s.Fetchable ∧ ∃ imm, decode (fetchWord s) = .add imm ∧
      s.CellUsable ∧ t.mem = s.mem.writeWord s.dp.toNat (wrap32 ((cellValue s).toNat + imm)) := by
  cases h with
  | executes hrun hf h => exact h.mem.imp_right fun hadd => ⟨hrun, hf, hadd⟩
  | _ => exact .inl rfl

/-- Where `pc` goes: it stays in a stopped machine and at a failed fetch check, it advances by 4,
or a taken BNZ adds its operand to that and leaves the machine running (R22). -/
theorem pc (h : Steps s t) :
    (¬ s.Running ∧ t.pc = s.pc) ∨ (¬ s.Fetchable ∧ ¬ t.Running ∧ t.pc = s.pc) ∨
      (s.Fetchable ∧ t.pc = s.pc + 4) ∨
      (s.Fetchable ∧ s.CellUsable ∧ Nonzero (cellValue s) ∧ t.Running ∧
        ∃ imm, decode (fetchWord s) = .bnz imm ∧ t.pc = s.pc + 4 + imm) := by
  cases h with
  | stopped hstopped => exact .inl ⟨hstopped, rfl⟩
  | fetchFails hrun hstop => exact .inr (.inl ⟨not_fetchable_of_fetchStop hstop, nofun, rfl⟩)
  | executes hrun hf h =>
    obtain hpc | ⟨imm, hi, hcell, hv, hpc, hstatus⟩ := h.pc
    · exact .inr (.inr (.inl ⟨hf, hpc⟩))
    · exact .inr (.inr (.inr ⟨hf, hcell, hv, hstatus.trans hrun, imm, hi, hpc⟩))

/-- How a step stops a running machine: a failed fetch check in the state as it was, or in the
advanced state the stop of opcode 3 or of a failed check on the cursor; nothing else changes
(R159, R160). -/
theorem stop_cases (h : Steps s t) (hrun : s.Running) (hstop : ¬ t.Running) :
    (∃ why, t = takeStop why s ∧ fetchStop s = some why) ∨
      s.Fetchable ∧ ∃ why, t = takeStop why (advance s) ∧
        ((opcodeField (fetchWord s) = 3 ∧ why = .illegalInstruction s.pc (fetchWord s)) ∨
          ((opcodeField (fetchWord s) = 1 ∨ opcodeField (fetchWord s) = 2) ∧
            cellStop s = some why)) := by
  cases h with
  | stopped hstopped => exact absurd hrun hstopped
  | fetchFails hrun hfetch => exact .inl ⟨_, rfl, hfetch⟩
  | executes hrun hf h =>
    obtain hstatus | ⟨why, ht, hwhy⟩ := h.status
    · exact absurd (hstatus.trans hrun) hstop
    · simp only [opcode_decode, encode_decode, advance_pc, Int.add_sub_cancel] at hwhy
      exact .inr ⟨hf, why, ht, hwhy⟩

end Steps

/-- Settles O36. -/
theorem stepAlwaysAnswersNext : Obligations.StepAlwaysAnswersNext := by
  intro s
  obtain ⟨t, h⟩ := exists_steps s
  exact ⟨t, h.step_eq⟩

/-- Settles O34: four bytes decode to the instruction of the word they make up, which is the
fetched one. -/
theorem stepRunsTheDecodedInstruction : Obligations.StepRunsTheDecodedInstruction := by
  intro s i hrun hf hbytes
  obtain ⟨rfl, _⟩ := Decoded.instr.inj hbytes
  exact step_of_fetchable hrun hf

/-- Settles O14: the capacity stays, and memory stays or has one word written inside the
capacity, which keeps its canonical form. -/
theorem stepKeepsStatesWellFormed : Obligations.StepKeepsStatesWellFormed := by
  rintro s t ⟨hpos, hmul, hwf, hwithin⟩ hstep
  have h : Steps s t := step_eq_next_iff.1 hstep
  rw [State.Wf, h.memSize]
  obtain hmem | ⟨_, _, imm, _, ⟨⟨hlow, hhigh⟩, _⟩, hmem⟩ := h.mem
  · rw [hmem]
    exact ⟨hpos, hmul, hwf, hwithin⟩
  · rw [hmem]
    exact ⟨hpos, hmul, Memory.wf_writeWord hwf _ _,
      Memory.within_writeWord hwithin (by omega) _⟩

/-- A stop taken by a failed fetch check is a true record (R152, R153, R161). -/
theorem stopRecordTrue_of_fetchStop {why : Stop} (h : fetchStop s = some why) :
    (takeStop why s).StopRecordTrue := by
  obtain ⟨hout, rfl⟩ | ⟨hin, hmis, rfl⟩ := fetchStop_eq_some.1 h
  · exact ⟨rfl, hout⟩
  · exact ⟨rfl, hin, hmis⟩

/-- A stop taken by a fetched reserved word is a true record (R154, R161). -/
theorem stopRecordTrue_of_reserved (hf : s.Fetchable) (hop : opcodeField (fetchWord s) = 3) :
    (takeStop (.illegalInstruction s.pc (fetchWord s)) (advance s)).StopRecordTrue :=
  ⟨(Int.add_sub_cancel s.pc 4).symm, hf.1, hf.2, rfl, hop⟩

/-- A stop taken by a failed check on the cursor, for a fetched ADD or BNZ, is a true record
(R155, R156, R161). -/
theorem stopRecordTrue_of_cellStop {why : Stop} (hf : s.Fetchable)
    (hop : opcodeField (fetchWord s) = 1 ∨ opcodeField (fetchWord s) = 2)
    (h : cellStop s = some why) : (takeStop why (advance s)).StopRecordTrue := by
  have hinstr : (advance s).CellInstrAt ((advance s).pc - 4) := by
    rw [advance_pc, Int.add_sub_cancel]
    exact ⟨hf.1, hf.2, hop⟩
  obtain ⟨hout, rfl⟩ | ⟨hin, hmis, rfl⟩ := cellStop_eq_some.1 h
  · exact ⟨rfl, hout, hinstr⟩
  · exact ⟨rfl, hin, hmis, hinstr⟩

/-- A running machine has no stop on record. -/
theorem stopRecordTrue_of_running (h : s.Running) : s.StopRecordTrue := by
  rw [State.StopRecordTrue, h]
  trivial

/-- Settles O33: a stopped machine keeps its record, a machine that runs on has none, and each
way to stop takes a true one. -/
theorem stepKeepsTheStopRecordTrue : Obligations.StepKeepsTheStopRecordTrue := by
  intro s t hrecord hstep
  have h : Steps s t := step_eq_next_iff.1 hstep
  by_cases hrun : s.Running
  · by_cases hrun' : t.Running
    · exact stopRecordTrue_of_running hrun'
    obtain ⟨why, rfl, hfetch⟩ | ⟨hf, why, rfl, ⟨hop, rfl⟩ | ⟨hop, hcell⟩⟩ :=
      h.stop_cases hrun hrun'
    · exact stopRecordTrue_of_fetchStop hfetch
    · exact stopRecordTrue_of_reserved hf hop
    · exact stopRecordTrue_of_cellStop hf hop hcell
  · obtain rfl : s = t := Host.Outcome.next.inj ((step_of_not_running hrun).symm.trans hstep)
    exact hrecord

/-- A failed fetch check has code 1 or 2 (R151). -/
theorem code_of_fetchStop {why : Stop} (h : fetchStop s = some why) :
    why.code = 1 ∨ why.code = 2 := by
  obtain ⟨_, rfl⟩ | ⟨_, _, rfl⟩ := fetchStop_eq_some.1 h
  · exact .inl rfl
  · exact .inr rfl

/-- A failed check on the cursor has code 4 or 5 (R151). -/
theorem code_of_cellStop {why : Stop} (h : cellStop s = some why) :
    why.code = 4 ∨ why.code = 5 := by
  obtain ⟨_, rfl⟩ | ⟨_, _, rfl⟩ := cellStop_eq_some.1 h
  · exact .inl rfl
  · exact .inr rfl

/-- Settles O31: the two fetch checks stop in the state as it was, the other three causes after
the advance, and taking a stop writes the latch alone. -/
theorem stopsArePrecise : Obligations.StopsArePrecise := by
  intro s t hrun hstep hstop
  obtain ⟨why, rfl, hfetch⟩ | ⟨_, why, rfl, ⟨_, rfl⟩ | ⟨_, hcell⟩⟩ :=
    (step_eq_next_iff.1 hstep).stop_cases hrun hstop
  · exact ⟨rfl, rfl, rfl, .inl ⟨code_of_fetchStop hfetch, rfl⟩⟩
  · exact ⟨rfl, rfl, rfl, .inr ⟨.inl rfl, rfl⟩⟩
  · exact ⟨rfl, rfl, rfl, .inr ⟨.inr (code_of_cellStop hcell), rfl⟩⟩

/-- Settles O38. -/
theorem onlyRightMovesTheCursor : Obligations.OnlyRightMovesTheCursor := by
  intro s t hstep hmoved
  exact (step_eq_next_iff.1 hstep).dp.resolve_left hmoved

/-- Settles O39: the only kind of step that can change a byte executes an instruction. -/
theorem onlyAddWritesMemory : Obligations.OnlyAddWritesMemory := by
  intro s t b hstep hb
  cases step_eq_next_iff.1 hstep with
  | executes hrun hf h =>
    obtain ⟨hadd, hcell, hlow, hhigh⟩ := h.of_readByte_ne hb
    exact ⟨hrun, hf, hcell, hadd, hlow, hhigh⟩
  | _ => exact absurd rfl hb

/-- Settles O40: the machine runs, so `pc` does not stay as that of a stopped one. -/
theorem programCounterMovesAsStated : Obligations.ProgramCounterMovesAsStated := by
  intro s t hrun hstep
  obtain ⟨hstopped, _⟩ | hfailed | hadvance | hbranch := (step_eq_next_iff.1 hstep).pc
  · exact absurd hrun hstopped
  · exact .inr (.inr hfailed)
  · exact .inl hadvance
  · exact .inr (.inl hbranch)

/-- Settles O42: `pc` moves by 4 and by the operand of BNZ, the cursor by that of RIGHT. -/
theorem alignedOperandsKeepAlignment : Obligations.AlignedOperandsKeepAlignment := by
  intro s t hpc hdp hoperand hstep
  have h : Steps s t := step_eq_next_iff.1 hstep
  by_cases hrun : s.Running
  case neg =>
    obtain rfl : s = t := Host.Outcome.next.inj ((step_of_not_running hrun).symm.trans hstep)
    exact ⟨hpc, hdp⟩
  constructor
  · obtain ⟨_, e⟩ | ⟨_, _, e⟩ | ⟨_, e⟩ | ⟨hf, _, _, _, imm, hi, e⟩ := h.pc
    case inr.inr.inr =>
      have himm : imm % 4 = 0 := by simpa [hi, Instr.opcode, Instr.imm] using hoperand hrun hf
      omega
    all_goals omega
  · obtain e | ⟨_, hf, imm, hi, e⟩ := h.dp
    · omega
    · have himm : imm % 4 = 0 := by simpa [hi, Instr.opcode, Instr.imm] using hoperand hrun hf
      omega

/-- Settles O47: the cell holds the wrapped sum, whose field moves by `k` modulo `2^30` and whose
opcode by what the field carries or borrows: for a representable `k`, 1 at most. -/
theorem addCarriesIntoTheOpcode : Obligations.AddCarriesIntoTheOpcode := by
  intro s k hcell hmin hmax
  refine ⟨_, exec_add_of_usable hcell k, ?_⟩
  have hfield := immField_wrap32_add (s.readWord s.dp) k
  have hopcode := opcodeField_wrap32_add (s.readWord s.dp) k
  have hlt := immField_lt (s.readWord s.dp)
  have hop := opcodeField_lt (s.readWord s.dp)
  rw [readWord_dp_storeCell, show cellValue s = s.readWord s.dp from rfl, opcode_decode,
    opcode_decode]
  refine ⟨hfield, fun hcarry => ?carry, fun hborrow => ?borrow, fun hlow hhigh => ?neither⟩
  case carry => constructor <;> omega
  case borrow => constructor <;> omega
  case neither => omega

end Sys2Proof.Machine

/-! The statements about what a step fetches, about runs, and about what a step reads. First the
word that a fetch reads after a store; then runs, taken apart into their first step and the rest;
then a step of the same registers over another memory. -/

namespace Sys2Proof.Machine

variable {s t u : State} {i : Instr} {m : Memory} {k : Nat}

/-! What a step fetches. -/

/-- A word stored in the cell at `pc` is the one fetched next (R56). -/
theorem fetchWord_storeCell_at_pc (hpc : s.pc = s.dp) (v : Word) :
    fetchWord (storeCell s v) = v := by
  rw [fetchWord, storeCell_pc, hpc, readWord_dp_storeCell]

/-- A running machine whose cursor is at `pc` runs the word that was stored in the cell (R56). -/
theorem step_storeCell_at_pc (hrun : s.Running) (hcell : s.CellUsable) (hpc : s.pc = s.dp)
    (v : Word) : step (storeCell s v) = exec (decode v) (advance (storeCell s v)) := by
  have hf : (storeCell s v).Fetchable := by
    rw [State.Fetchable, storeCell_pc, hpc]
    exact hcell
  rw [step_of_fetchable (s := storeCell s v) hrun hf, fetchWord_storeCell_at_pc hpc]

/-- Settles O20: the cell of the advanced state is where it fetches next, and it is aligned as
`pc` is. -/
theorem storeIsSeenByTheNextFetch : Obligations.StoreIsSeenByTheNextFetch := by
  intro s imm hrun hf hd hdp hin
  have hcell : (advance s).CellUsable := by
    have hal : s.dp % 4 = 0 := by
      have hpc : s.pc % 4 = 0 := hf.2
      omega
    exact ⟨hin, hal⟩
  have hstep : step s = exec (.add imm) (advance s) := by rw [step_of_fetchable hrun hf, hd]
  exact ⟨_, hstep.trans (exec_add_of_usable hcell imm), hdp.symm,
    fetchWord_storeCell_at_pc (s := advance s) hdp.symm _,
    step_storeCell_at_pc (s := advance s) hrun hcell hdp.symm _⟩

/-- The word 0 is RIGHT 0 (R78). -/
theorem decode_zero : decode 0#32 = .right 0 := by decide

/-- A word that decodes to BNZ is not 0 (R126). -/
theorem nonzero_of_decode_bnz {w : Word} {imm : Int} (h : decode w = .bnz imm) : Nonzero w := by
  rintro rfl
  simp [decode_zero] at h

/-- Settles O24: the cell is the fetched word, which is usable as it could be fetched, and is
not 0 as its opcode is 2. -/
theorem bnzOnItsOwnWordIsTaken : Obligations.BnzOnItsOwnWordIsTaken := by
  intro s imm hrun hf hd hdp
  have hcell : s.CellUsable := by
    rw [State.CellUsable, hdp]
    exact hf
  have hvalue : cellValue s = fetchWord s := by rw [cellValue, hdp, fetchWord]
  exact step_of_bnz_taken hrun hf hd hcell (hvalue ▸ nonzero_of_decode_bnz hd)

/-- An instruction of 32 bits is the whole word. -/
theorem tableWord_toNat (w : Word) : tableWord 32 w.toNat = w := by
  rw [tableWord, Nat.mod_eq_of_lt w.isLt, BitVec.ofNat_toNat, BitVec.setWidth_eq]

/-- A word placed at a fetchable `pc` is stored there. -/
theorem withFetchWord_of_fetchable (hf : s.Fetchable) (w : Word) :
    s.withFetchWord 32 w.toNat = s.writeWord s.pc w := by
  rw [State.withFetchWord, if_pos hf, tableWord_toNat]

/-- Settles O35: placing a word leaves the registers and the capacity, so the machine can still
fetch, and reads the word back. -/
theorem placedWordRunsNext : Obligations.PlacedWordRunsNext := by
  intro s w hrun hf
  have hword : fetchWord (s.writeWord s.pc w) = w := s.mem.readWord_writeWord_same s.pc.toNat w
  rw [withFetchWord_of_fetchable hf, step_of_fetchable (s := s.writeWord s.pc w) hrun hf, hword]
  rfl

/-! Runs. -/

/-- A run of one step more is a step and a run from where it goes. -/
theorem runsTo_succ (h : step s = .next t) : RunsTo (k + 1) s u ↔ RunsTo k t u := by
  have hcore : core.step s = .next t := h
  simp only [RunsTo, Host.Core.run, hcore]

/-- A state that steps to itself is where every run from it ends. -/
theorem runsTo_of_step_eq_self (h : step s = .next s) (k : Nat) : RunsTo k s s := by
  induction k with
  | zero => rfl
  | succ k ih => exact (runsTo_succ h).2 ih

/-- What every step keeps, every run keeps. -/
theorem runsTo_preserves {P : State → Prop} (hstep : ∀ s t, P s → step s = .next t → P t)
    (hrun : RunsTo k s u) (hs : P s) : P u := by
  induction k generalizing s with
  | zero =>
    obtain rfl : s = u := Host.Outcome.next.inj hrun
    exact hs
  | succ k ih =>
    obtain ⟨t, ht⟩ := exists_steps s
    exact ih ((runsTo_succ ht.step_eq).1 hrun) (hstep s t hs ht.step_eq)

/-- Settles O32: the state steps to itself. -/
theorem stoppedMachineKeepsItsState : Obligations.StoppedMachineKeepsItsState := by
  intro k s why hstopped
  have hnot : ¬ s.Running := by simp [State.Running, hstopped]
  exact runsTo_of_step_eq_self (step_of_not_running hnot) k

/-- Settles O25: the taken branch goes back over the advance of `pc`, so the state steps to
itself. -/
theorem branchToItselfNeverEnds : Obligations.BranchToItselfNeverEnds := by
  intro k s hrun hf hword hcell hv
  have hd : decode (fetchWord s) = .bnz (-4) := by
    rw [hword]
    decide
  have hself : step s = .next s := by
    rw [step_of_bnz_taken hrun hf hd hcell hv, Int.add_neg_cancel_right]
  exact runsTo_of_step_eq_self hself k

/-- Settles O41: having the capacity that the run began with is kept by every step. -/
theorem runKeepsTheCapacity : Obligations.RunKeepsTheCapacity := by
  intro k s t hrun
  refine runsTo_preserves (P := fun u => u.memSize = s.memSize) (fun u v hu hstep => ?_) hrun rfl
  exact (step_eq_next_iff.1 hstep).memSize.trans hu

/-- Four zero bytes are the word 0 (R43). -/
theorem Memory.readWord_eq_zero {a : Nat} (h : ∀ b, a ≤ b → b < a + 4 → m.readByte b = 0#8) :
    m.readWord a = 0#32 := by
  rw [Memory.readWord, h a (by omega) (by omega), h (a + 1) (by omega) (by omega),
    h (a + 2) (by omega) (by omega), h (a + 3) (by omega) (by omega)]
  decide

/-- The step that fetches the word 0 advances `pc` and does nothing else (R78, R100). -/
theorem step_of_zero_fetched (hrun : s.Running) (hf : s.Fetchable) (hw : fetchWord s = 0#32) :
    step s = .next (advance s) := by
  rw [step_of_fetchable hrun hf, hw, decode_zero, exec_right, Int.add_zero]
  rfl

/-- Settles O44, by induction on the number of words up to the end of memory: with none left the
fetch stops, and otherwise the zero word at `pc` leaves one word less. -/
theorem zeroMemoryRunsOffTheEnd : Obligations.ZeroMemoryRunsOffTheEnd := by
  intro n
  induction n with
  | zero =>
    intro s hrun hlow hend hmul hzero
    have hpc : s.pc = s.memSize := by omega
    have hout : ¬ InRange s.memSize s.pc := by omega
    rw [runsTo_succ (step_of_not_inRange hrun hout), ← hpc]
    rfl
  | succ n ih =>
    intro s hrun hlow hend hmul hzero
    have hf : s.Fetchable := ⟨⟨hlow, by omega⟩, show s.pc % 4 = 0 by omega⟩
    have hword : fetchWord s = 0#32 :=
      Memory.readWord_eq_zero fun b hb hb' => hzero b (by omega) (by omega)
    rw [runsTo_succ (step_of_zero_fetched hrun hf hword)]
    refine ih (advance s) hrun ?_ ?_ hmul fun a ha ha' => hzero a ?_ ha'
    all_goals simp only [advance_pc, advance_memSize] at *; omega

/-! The same registers over another memory. -/

/-- An instruction reads memory only through the cell (R41): over another memory with the same
cell it does the same, and bytes on which the two memories agree are left equal. -/
theorem Executes.setMem (h : Executes s i t) (hcell : cellValue (s.setMem m) = cellValue s) :
    ∃ m', Executes (s.setMem m) i (t.setMem m') ∧
      ∀ b, s.mem.readByte b = m.readByte b → t.mem.readByte b = m'.readByte b := by
  cases h with
  | right imm => exact ⟨m, .right imm, fun b hb => hb⟩
  | add imm husable =>
    have hadd := Executes.add (s := s.setMem m) imm husable
    rw [hcell] at hadd
    refine ⟨_, hadd, fun b hb => ?_⟩
    simp only [storeCell_mem, State.setMem_mem, State.setMem_dp, Memory.readByte_writeWord, hb]
  | bnzTaken imm husable hv =>
    exact ⟨m, .bnzTaken (s := s.setMem m) imm husable (hcell ▸ hv), fun b hb => hb⟩
  | bnzNotTaken imm husable hv =>
    exact ⟨m, .bnzNotTaken (s := s.setMem m) imm husable (hcell ▸ hv), fun b hb => hb⟩
  | cursorStop hop hstop => exact ⟨m, .cursorStop (s := s.setMem m) hop hstop, fun b hb => hb⟩
  | reserved imm => exact ⟨m, .reserved imm, fun b hb => hb⟩

/-- A step reads memory only through the fetched word and the cell (R41, R51). -/
theorem Steps.setMem (h : Steps s t) (hword : fetchWord (s.setMem m) = fetchWord s)
    (hcell : cellValue (s.setMem m) = cellValue s) :
    ∃ m', Steps (s.setMem m) (t.setMem m') ∧
      ∀ b, s.mem.readByte b = m.readByte b → t.mem.readByte b = m'.readByte b := by
  cases h with
  | stopped hstopped => exact ⟨m, .stopped (s := s.setMem m) hstopped, fun b hb => hb⟩
  | fetchFails hrun hstop => exact ⟨m, .fetchFails (s := s.setMem m) hrun hstop, fun b hb => hb⟩
  | executes hrun hf h =>
    obtain ⟨m', h', hbytes⟩ := h.setMem (m := m) hcell
    exact ⟨m', .executes (s := s.setMem m) hrun hf (hword ▸ h'), hbytes⟩

/-- States with the same registers differ in memory alone. -/
theorem eq_setMem {s' : State} (hsize : s.memSize = s'.memSize) (hpc : s.pc = s'.pc)
    (hdp : s.dp = s'.dp) (hstatus : s.status = s'.status) : s' = s.setMem s'.mem := by
  cases s
  cases s'
  simp_all [State.setMem]

/-- Settles O43: the second state is the first one over another memory, and so is its next
state. -/
theorem stepReadsOnlyTheWordAndTheCell : Obligations.StepReadsOnlyTheWordAndTheCell := by
  intro s s' t t' hsize hpc hdp hstatus hword hcell hstep hstep'
  have hs' : s' = s.setMem s'.mem := eq_setMem hsize hpc hdp hstatus
  obtain ⟨m', h', hbytes⟩ := (step_eq_next_iff.1 hstep).setMem (m := s'.mem)
    (hs' ▸ hword.symm) (hs' ▸ hcell.symm)
  obtain rfl : t.setMem m' = t' :=
    Host.Outcome.next.inj (h'.step_eq.symm.trans (hs' ▸ hstep'))
  exact ⟨rfl, rfl, rfl, hbytes⟩

end Sys2Proof.Machine

/-! The step against the pseudocode of `spec/40_fetch_decode_execute.md` over memory as a function,
and the two byte orders (R42). First the accesses and the arithmetic in both readings, then each
operation of `ArrayMachine`: a state read as an array machine's does the same, and a byte-swapped
array machine of the other order does the same byte-swapped. -/

namespace Sys2Proof

open Machine

/-- The little-endian sum of R43 is the concatenation of the bytes, highest address first. -/
theorem wordOfBytes_eq_append (b0 b1 b2 b3 : Byte) :
    wordOfBytes b0 b1 b2 b3 = b3 ++ b2 ++ b1 ++ b0 := by
  apply BitVec.eq_of_toNat_eq
  rw [toNat_wordOfBytes, BitVec.toNat_append, BitVec.toNat_append, BitVec.toNat_append,
    ← Nat.shiftLeft_add_eq_or_of_lt b2.isLt, ← Nat.shiftLeft_add_eq_or_of_lt b1.isLt,
    ← Nat.shiftLeft_add_eq_or_of_lt b0.isLt]
  simp only [Nat.shiftLeft_eq]
  omega

/-- Byte `k` of a word is its bits from `8 * k` up (R44). -/
theorem byteOfWord_eq_extractLsb' (w : Word) (k : Nat) :
    byteOfWord w k = w.extractLsb' (8 * k) 8 := by
  apply BitVec.eq_of_toNat_eq
  rw [toNat_byteOfWord, BitVec.extractLsb'_toNat, Nat.shiftRight_eq_div_pow, Nat.pow_mul]

/-- The wrapped sum of R111 is the sum of words with the immediate sign-extended. -/
theorem wrap32_add_sext30 (v w : Word) :
    wrap32 (v.toNat + sext30 (immField w)) = v + (w.setWidth 30).signExtend 32 := by
  rw [wrap32, BitVec.ofInt_add, BitVec.signExtend, toInt_setWidth_imm, BitVec.ofInt_natCast,
    BitVec.ofNat_toNat, BitVec.setWidth_eq]

end Sys2Proof

namespace Sys2Proof.Machine

variable {s t : State}

/-! The array machine: one equation for each outcome of its checks. -/

namespace ArrayState

variable {o : ByteOrder} {s : ArrayState} {use : Word → ArrayState}

/-- The range check of the pseudocode fails where that of the model does (R46). -/
theorem outOfRange_iff (size : Nat) (a : Int) :
    (a < 0 ∨ (size : Int) < a + 4) ↔ ¬ InRange size a := by
  rw [inRange_iff]
  omega

theorem withCell_of_not_inRange (h : ¬ InRange s.memSize s.dp) :
    s.withCell o use = s.stop (.dpOutOfRange s.dp) := by
  rw [withCell, if_pos ((outOfRange_iff _ _).2 h)]

theorem withCell_of_not_aligned (h : InRange s.memSize s.dp) (h' : ¬ Aligned s.dp) :
    s.withCell o use = s.stop (.dpMisaligned s.dp) := by
  rw [withCell, if_neg ((outOfRange_iff _ _).not_left.2 h), if_pos h']

theorem withCell_of_usable (h : InRange s.memSize s.dp) (h' : Aligned s.dp) :
    s.withCell o use = use (s.read o s.dp.toNat) := by
  rw [withCell, if_neg ((outOfRange_iff _ _).not_left.2 h), if_neg (not_not.2 h')]

theorem step_of_not_running (h : s.status ≠ .running) : s.step o = s := by
  rw [step, if_pos h]

theorem step_of_not_inRange (hrun : s.status = .running) (h : ¬ InRange s.memSize s.pc) :
    s.step o = s.stop (.fetchOutOfRange s.pc) := by
  rw [step, if_neg (not_not.2 hrun), if_pos ((outOfRange_iff _ _).2 h)]

theorem step_of_not_aligned (hrun : s.status = .running) (h : InRange s.memSize s.pc)
    (h' : ¬ Aligned s.pc) : s.step o = s.stop (.fetchMisaligned s.pc) := by
  rw [step, if_neg (not_not.2 hrun), if_neg ((outOfRange_iff _ _).not_left.2 h), if_pos h']

theorem step_of_fetchable (hrun : s.status = .running) (h : InRange s.memSize s.pc)
    (h' : Aligned s.pc) :
    s.step o = execute o { s with pc := s.pc + 4 } s.pc (s.read o s.pc.toNat) := by
  rw [step, if_neg (not_not.2 hrun), if_neg ((outOfRange_iff _ _).not_left.2 h),
    if_neg (not_not.2 h')]

/-- The execution of a decoded instruction at the address `a` (R94); `execute_eq` ties it to the
execution of a word. -/
def executeInstr (o : ByteOrder) (s : ArrayState) (a : Int) : Instr → ArrayState
  | .right imm => { s with dp := s.dp + imm }
  | .add imm => s.withCell o (fun v => s.write o s.dp.toNat (wrap32 (v.toNat + imm)))
  | .bnz imm => s.withCell o (fun v => if v = 0#32 then s else { s with pc := s.pc + imm })
  | .reserved3 imm => s.stop (.illegalInstruction a (encode (.reserved3 imm)))

/-- The pseudocode executes a word as the instruction that it decodes to (R93, R94). -/
theorem execute_eq (o : ByteOrder) (s : ArrayState) (a : Int) (w : Word) :
    s.execute o a w = s.executeInstr o a (decode w) := by
  have hzero := extractLsb'_eq_iff_opcodeField (w := w) (k := 0) (by decide)
  have hone := extractLsb'_eq_iff_opcodeField (w := w) (k := 1) (by decide)
  have htwo := extractLsb'_eq_iff_opcodeField (w := w) (k := 2) (by decide)
  have hword := encode_decode w
  simp only [execute, hzero, hone, htwo, toInt_setWidth_imm, ← wrap32_add_sext30]
  rcases decode_cases w with ⟨hop, hd⟩ | ⟨hop, hd⟩ | ⟨hop, hd⟩ | ⟨hop, hd⟩ <;>
    rw [hd] at hword ⊢ <;> simp [hop, executeInstr, hword]

end ArrayState

/-! The refinement. -/

/-- A word read, in both readings (R43). -/
theorem read_toArrayState (s : State) (a : Nat) :
    s.toArrayState.read .little a = s.mem.readWord a :=
  (wordOfBytes_eq_append ..).symm

/-- A word write, in both readings (R44). -/
theorem toArrayState_writeWord (s : State) (a : Nat) (v : Word) :
    (s.setMem (s.mem.writeWord a v)).toArrayState = s.toArrayState.write .little a v := by
  have hbytes : (s.mem.writeWord a v).readByte = (s.toArrayState.write .little a v).M := by
    funext b
    rw [Memory.readByte_writeWord, byteOfWord_eq_extractLsb']
    rfl
  show { s.toArrayState with M := (s.mem.writeWord a v).readByte } = _
  rw [hbytes]
  rfl

/-- A cell access with a usable cell, in both readings (R94). -/
theorem toArrayState_withCell_of_usable (h : s.CellUsable) (use : Word → ArrayState) :
    s.toArrayState.withCell .little use = use (cellValue s) := by
  obtain ⟨hin, hal⟩ := h
  rw [ArrayState.withCell_of_usable (s := s.toArrayState) hin hal]
  exact congrArg use (read_toArrayState s s.dp.toNat)

/-- A cell access that fails a check, in both readings (R94). -/
theorem toArrayState_withCell_of_cellStop {why : Stop} (h : cellStop s = some why)
    (use : Word → ArrayState) :
    s.toArrayState.withCell .little use = (takeStop why s).toArrayState := by
  obtain ⟨hout, rfl⟩ | ⟨hin, hmis, rfl⟩ := cellStop_eq_some.1 h
  · exact ArrayState.withCell_of_not_inRange hout
  · exact ArrayState.withCell_of_not_aligned hin hmis

/-- Executing an instruction, in both readings (R94). -/
theorem Executes.refines {i : Instr} (h : Executes s i t) :
    t.toArrayState = s.toArrayState.executeInstr .little (s.pc - 4) i := by
  cases h with
  | right imm => rfl
  | add imm hcell =>
    rw [ArrayState.executeInstr, toArrayState_withCell_of_usable hcell]
    exact toArrayState_writeWord s s.dp.toNat _
  | bnzTaken imm hcell hv =>
    rw [ArrayState.executeInstr, toArrayState_withCell_of_usable hcell, if_neg hv]
    rfl
  | bnzNotTaken imm hcell hv =>
    rw [ArrayState.executeInstr, toArrayState_withCell_of_usable hcell, if_pos hv]
  | cursorStop hop hstop =>
    cases i with
    | add imm | bnz imm =>
      rw [ArrayState.executeInstr, toArrayState_withCell_of_cellStop hstop]
    | right imm | reserved3 imm => simp [Instr.opcode] at hop
  | reserved imm => rfl

/-- A step, in both readings (R90 to R94). -/
theorem Steps.refines (h : Steps s t) : t.toArrayState = s.toArrayState.step .little := by
  cases h with
  | stopped hstopped => exact (ArrayState.step_of_not_running hstopped).symm
  | fetchFails hrun hstop =>
    obtain ⟨hout, rfl⟩ | ⟨hin, hmis, rfl⟩ := fetchStop_eq_some.1 hstop
    · exact (ArrayState.step_of_not_inRange (s := s.toArrayState) hrun hout).symm
    · exact (ArrayState.step_of_not_aligned (s := s.toArrayState) hrun hin hmis).symm
  | executes hrun hf h =>
    calc t.toArrayState
        = (advance s).toArrayState.execute .little s.pc (fetchWord s) := by
          rw [h.refines, advance_pc, Int.add_sub_cancel, ArrayState.execute_eq]
      _ = (advance s).toArrayState.execute .little s.pc
            (s.toArrayState.read .little s.pc.toNat) :=
          congrArg _ (read_toArrayState s s.pc.toNat).symm
      _ = s.toArrayState.step .little :=
          (ArrayState.step_of_fetchable hrun hf.1 hf.2).symm

/-- Settles O45: every kind of step is the pseudocode's. -/
theorem stepRefinesThePseudocode : Obligations.StepRefinesThePseudocode := by
  intro s
  obtain ⟨t, h⟩ := exists_steps s
  exact ⟨t, h.step_eq, h.refines⟩

/-! The two byte orders, on the array machine alone. -/

namespace ArrayState

/-- An aligned word of the swapped memory, read in the opposite order, is the same word
(R42). -/
theorem read_swapped (s : ArrayState) {a : Nat} (ha : a % 4 = 0) :
    s.swapped.read .big a = s.read .little a := by
  have byte {k : Nat} (hk : k < 4) : s.swapped.M (a + k) = s.M (a + (3 - k)) := by
    show s.M (a + k - (a + k) % 4 + (3 - (a + k) % 4)) = _
    congr 1
    omega
  have first : s.swapped.M a = s.M (a + 3) := byte (k := 0) (by decide)
  simp only [read, first, byte (k := 1) (by decide), byte (k := 2) (by decide),
    byte (k := 3) (by decide)]
  rfl

/-- An aligned word written to the swapped memory in the opposite order is the same word written
and then swapped (R42). -/
theorem write_swapped (s : ArrayState) {a : Nat} (ha : a % 4 = 0) (v : Word) :
    s.swapped.write .big a v = (s.write .little a v).swapped := by
  have byte (x : Nat) : (s.swapped.write .big a v).M x = (s.write .little a v).swapped.M x := by
    simp only [write, swapped, ByteOrder.place]
    by_cases hx : a ≤ x ∧ x < a + 4
    · rw [if_pos hx, if_pos (by omega), show 3 - (x - a) = x - x % 4 + (3 - x % 4) - a by omega]
    · rw [if_neg hx, if_neg (by omega)]
  show { s with M := (s.swapped.write .big a v).M } = _
  rw [funext byte]
  rfl

/-- An aligned address in Z is aligned as an address of memory. -/
theorem toNat_emod_of_aligned {a : Int} (h : Aligned a) : a.toNat % 4 = 0 := by
  have hal : a % 4 = 0 := h
  omega

/-- A cell access of the swapped machine, whose use of the cell of an aligned cursor is the
swapped one (R42, R94). -/
theorem withCell_swapped {s : ArrayState} {use use' : Word → ArrayState}
    (huse : s.dp.toNat % 4 = 0 → ∀ v, use' v = (use v).swapped) :
    s.swapped.withCell .big use' = (s.withCell .little use).swapped := by
  by_cases hin : InRange s.memSize s.dp
  · by_cases hal : Aligned s.dp
    · have hnat := toNat_emod_of_aligned hal
      rw [withCell_of_usable hin hal, withCell_of_usable (s := s.swapped) hin hal, huse hnat]
      exact congrArg (fun v => (use v).swapped) (read_swapped s hnat)
    · rw [withCell_of_not_aligned hin hal, withCell_of_not_aligned (s := s.swapped) hin hal]
      rfl
  · rw [withCell_of_not_inRange hin, withCell_of_not_inRange (s := s.swapped) hin]
    rfl

/-- Executing a word in the swapped machine (R42, R94). -/
theorem execute_swapped (s : ArrayState) (a : Int) (w : Word) :
    s.swapped.execute .big a w = (s.execute .little a w).swapped := by
  rw [execute_eq, execute_eq]
  cases decode w with
  | right imm => rfl
  | add imm =>
    unfold executeInstr
    exact withCell_swapped fun hal v => write_swapped s hal _
  | bnz imm =>
    unfold executeInstr
    refine withCell_swapped fun _ v => ?_
    split <;> rfl
  | reserved3 imm => rfl

/-- A step of the swapped machine (R42). -/
theorem step_swapped (s : ArrayState) : s.swapped.step .big = (s.step .little).swapped := by
  by_cases hrun : s.status = .running
  case neg => rw [step_of_not_running hrun, step_of_not_running (s := s.swapped) hrun]
  by_cases hin : InRange s.memSize s.pc
  · by_cases hal : Aligned s.pc
    · rw [step_of_fetchable hrun hin hal, step_of_fetchable (s := s.swapped) hrun hin hal,
        ← execute_swapped, ← read_swapped s (toNat_emod_of_aligned hal)]
      rfl
    · rw [step_of_not_aligned hrun hin hal, step_of_not_aligned (s := s.swapped) hrun hin hal]
      rfl
  · rw [step_of_not_inRange hrun hin, step_of_not_inRange (s := s.swapped) hrun hin]
    rfl

end ArrayState

/-- Settles O46: the step is the pseudocode's, and the pseudocode's step commutes with the swap
of bytes and orders. -/
theorem byteOrderIsUnobservable : Obligations.ByteOrderIsUnobservable := by
  intro s t hstep
  rw [(step_eq_next_iff.1 hstep).refines, ArrayState.step_swapped]

end Sys2Proof.Machine
